-- ==== Sys2Proof/Word.lean ====
section
/-! DEFINITION. The words of the core: bytes, 32-bit words and register numbers (00_scope.md R8, R13, R14). -/

namespace Sys2Proof

/-- A byte of data or stack memory (R8: byte size 8 bits). -/
abbrev Byte := BitVec 8

/-- A 32-bit value: a register, the pc, an address or an instruction word (R8: XLEN 32). -/
abbrev Word := BitVec 32

/-- A register number as an instruction word carries it, 0 to 31 (R8, R20). -/
abbrev RegIdx := BitVec 5

end Sys2Proof
end

