-- ==== Sys2Proof/Syntax.lean ====
section
/-! DEFINITION. The 34 instructions of the core (30_encoding.md R80), one constructor per row of
spec/opcode_table.json, in the table's order. An operand is the field of the instruction word: the immediates of the
formats I and S are the 12 bits `imm[11:0]`, of SB the 13 bits `imm[12:0]`, of U the 20 bits `IR[31:12]`, of UJ the
21 bits `imm[20:0]` (R71 to R76, R79). The machine extends them (Machine/Operands.lean). -/

namespace Sys2Proof

inductive Instr where
  /-- 41_op_reg.md R121 -/
  | add (rd rs1 rs2 : RegIdx)
  /-- R122 -/
  | sub (rd rs1 rs2 : RegIdx)
  /-- R123 -/
  | xor (rd rs1 rs2 : RegIdx)
  /-- R124 -/
  | or (rd rs1 rs2 : RegIdx)
  /-- R125 -/
  | and (rd rs1 rs2 : RegIdx)
  /-- R126 -/
  | sll (rd rs1 rs2 : RegIdx)
  /-- R127 -/
  | slt (rd rs1 rs2 : RegIdx)
  /-- R128 -/
  | srl (rd rs1 rs2 : RegIdx)
  /-- R129 -/
  | sra (rd rs1 rs2 : RegIdx)
  /-- 42_op_muldiv.md R131 -/
  | mul (rd rs1 rs2 : RegIdx)
  /-- R132 -/
  | div (rd rs1 rs2 : RegIdx)
  /-- R133 -/
  | rem (rd rs1 rs2 : RegIdx)
  /-- 43_op_imm.md R141 -/
  | addi (rd rs1 : RegIdx) (imm : BitVec 12)
  /-- R142 -/
  | andi (rd rs1 : RegIdx) (imm : BitVec 12)
  /-- R143 -/
  | ori (rd rs1 : RegIdx) (imm : BitVec 12)
  /-- R144 -/
  | xori (rd rs1 : RegIdx) (imm : BitVec 12)
  /-- R145 -/
  | slti (rd rs1 : RegIdx) (imm : BitVec 12)
  /-- R146: the whole immediate field; `imm[4:0]` is the amount and `imm[11:5]` is ignored (R82). -/
  | slli (rd rs1 : RegIdx) (imm : BitVec 12)
  /-- R147 -/
  | srli (rd rs1 : RegIdx) (shamt : BitVec 5)
  /-- R148 -/
  | srai (rd rs1 : RegIdx) (shamt : BitVec 5)
  /-- 44_load.md R151 -/
  | lb (rd rs1 : RegIdx) (imm : BitVec 12)
  /-- R152 -/
  | lh (rd rs1 : RegIdx) (imm : BitVec 12)
  /-- R153 -/
  | lw (rd rs1 : RegIdx) (imm : BitVec 12)
  /-- 45_store.md R156: the data register first, as in the assembly notation (R155). -/
  | sb (rs2 rs1 : RegIdx) (imm : BitVec 12)
  /-- R157 -/
  | sh (rs2 rs1 : RegIdx) (imm : BitVec 12)
  /-- R158 -/
  | sw (rs2 rs1 : RegIdx) (imm : BitVec 12)
  /-- 46_branch.md R161 -/
  | beq (rs1 rs2 : RegIdx) (imm : BitVec 13)
  /-- R162 -/
  | bne (rs1 rs2 : RegIdx) (imm : BitVec 13)
  /-- R163 -/
  | blt (rs1 rs2 : RegIdx) (imm : BitVec 13)
  /-- R164 -/
  | bge (rs1 rs2 : RegIdx) (imm : BitVec 13)
  /-- 47_jump.md R171 -/
  | jal (rd : RegIdx) (imm : BitVec 21)
  /-- R172: `funct3` is kept because the word has it; nothing examines it (R83). Log 11. -/
  | jalr (rd rs1 : RegIdx) (funct3 : BitVec 3) (imm : BitVec 12)
  /-- 48_upper.md R176 -/
  | lui (rd : RegIdx) (imm20 : BitVec 20)
  /-- R177 -/
  | auipc (rd : RegIdx) (imm20 : BitVec 20)
  deriving DecidableEq, Repr

end Sys2Proof
end

