-- ==== Sys2Proof/WellFormed.lean ====
section
/-! DEFINITION. Which terms of `Instr` are instructions (30_encoding.md R79, R88): the offset of a branch and of JAL is a
multiple of 2 (`imm[0]` is implicitly zero, so no word carries it). Every register number, shift amount and immediate
is in its range by its type. -/

namespace Sys2Proof

/-- Every check R88 asks for that the operand types do not already make. -/
def Instr.wf : Instr → Bool
  | .beq _ _ imm | .bne _ _ imm | .blt _ _ imm | .bge _ _ imm => !imm.getLsbD 0
  | .jal _ imm => !imm.getLsbD 0
  | .add .. | .sub .. | .xor .. | .or .. | .and .. | .sll .. | .slt .. | .srl .. | .sra .. | .mul .. | .div .. | .rem ..
  | .addi .. | .andi .. | .ori .. | .xori .. | .slti .. | .slli .. | .srli .. | .srai .. | .lb .. | .lh .. | .lw ..
  | .sb .. | .sh .. | .sw .. | .jalr .. | .lui .. | .auipc .. => true

end Sys2Proof
end

