-- ==== Sys2Proof/Decode.lean ====
section
/-! DEFINITION. From instruction words to instructions and back (30_encoding.md). `Fields` is the decoder's record of R78 with
the immediate of R79; `decode` selects by the opcode map of R80 to R83 and rejects every other word under a name of
R85; `encode` places the fields as R71 to R76 say (R88). The instruction memory holds whole words, so decoding starts
from a word and no byte order enters (R49). -/

namespace Sys2Proof

/-! ## The formats of an encoded word -/

/-- R77: the six bit layouts, and none for an opcode that the core does not have. -/
inductive Format where
  | R | I | S | SB | U | UJ | none
  deriving DecidableEq, Repr

/-- R77: which opcode uses which format. -/
def formatOf (opcode : BitVec 7) : Format :=
  if opcode = 0x33#7 then .R
  else if opcode = 0x13#7 ∨ opcode = 0x03#7 ∨ opcode = 0x67#7 then .I
  else if opcode = 0x23#7 then .S
  else if opcode = 0x63#7 then .SB
  else if opcode = 0x6F#7 then .UJ
  else if opcode = 0x37#7 ∨ opcode = 0x17#7 then .U
  else .none

/-- `IR[6:0]` (R70). -/
def opcodeOf (w : Word) : BitVec 7 := w.extractLsb' 0 7
/-- `IR[11:7]` (R78). -/
def rdOf (w : Word) : RegIdx := w.extractLsb' 7 5
/-- `IR[14:12]` (R78). -/
def funct3Of (w : Word) : BitVec 3 := w.extractLsb' 12 3
/-- `IR[19:15]` (R78). -/
def rs1Of (w : Word) : RegIdx := w.extractLsb' 15 5
/-- `IR[24:20]` (R78). -/
def rs2Of (w : Word) : RegIdx := w.extractLsb' 20 5
/-- `IR[31:25]` (R78; the source's `top` under opcode 0x13). -/
def funct7Of (w : Word) : BitVec 7 := w.extractLsb' 25 7

/-- The immediate field of format I (R72). -/
def fieldI (w : Word) : BitVec 12 := w.extractLsb' 20 12
/-- The immediate field of format S (R73): `IR[31:25] ++ IR[11:7]`. -/
def fieldS (w : Word) : BitVec 12 := w.extractLsb' 25 7 ++ w.extractLsb' 7 5
/-- The immediate of format SB (R74): `IR[31] ++ IR[7] ++ IR[30:25] ++ IR[11:8] ++ 0b0`. -/
def fieldSB (w : Word) : BitVec 13 :=
  w.extractLsb' 31 1 ++ w.extractLsb' 7 1 ++ w.extractLsb' 25 6 ++ w.extractLsb' 8 4 ++ 0#1
/-- The immediate field of format U (R75): `IR[31:12]`. -/
def fieldU (w : Word) : BitVec 20 := w.extractLsb' 12 20
/-- The immediate of format UJ (R76): `IR[31] ++ IR[19:12] ++ IR[20] ++ IR[30:21] ++ 0b0`. -/
def fieldUJ (w : Word) : BitVec 21 :=
  w.extractLsb' 31 1 ++ w.extractLsb' 12 8 ++ w.extractLsb' 20 1 ++ w.extractLsb' 21 10 ++ 0#1

/-- R79: the 32-bit immediate of the word's format. Format R has none and nothing reads it; the record holds 0 there, and
for a word of no format. -/
def immOf (fmt : Format) (w : Word) : Word :=
  match fmt with
  | .I => (fieldI w).signExtend 32
  | .S => (fieldS w).signExtend 32
  | .SB => (fieldSB w).signExtend 32
  | .U => fieldU w ++ 0#12
  | .UJ => (fieldUJ w).signExtend 32
  | .R | .none => 0#32

/-- The decoder's record `(opcode, rd, rs1, rs2, funct3, funct7, imm)` (R78). -/
structure Fields where
  opcode : BitVec 7
  rd : RegIdx
  rs1 : RegIdx
  rs2 : RegIdx
  funct3 : BitVec 3
  funct7 : BitVec 7
  imm : Word
  deriving DecidableEq, Repr

/-- R78: the fields of a word; "For I/load/JALR, `rs2` and `funct7` are not present in the wire format and must be zeroed". -/
def fieldsOf (w : Word) : Fields :=
  { opcode := opcodeOf w
    rd := rdOf w
    rs1 := rs1Of w
    rs2 := if formatOf (opcodeOf w) = .I then 0#5 else rs2Of w
    funct3 := funct3Of w
    funct7 := if formatOf (opcodeOf w) = .I then 0#7 else funct7Of w
    imm := immOf (formatOf (opcodeOf w)) w }

/-! ## Decoding -/

/-- Why a word is no instruction: one name for each bullet of R85. -/
inductive Illegal where
  /-- `IR[6:0]` is none of the nine opcodes. The zero word falls here too, though fetch never hands it to the decoder (R84). -/
  | opcode
  /-- Opcode 0x33 with a pair (funct3, funct7) that R81 does not list. -/
  | opFunct
  /-- Opcode 0x13 with funct3 = 3, or funct3 = 5 and a `top` other than 0x00 and 0x20 (R82). -/
  | opImmFunct
  /-- Opcode 0x03 with funct3 above 2. -/
  | loadFunct
  /-- Opcode 0x23 with funct3 above 2. -/
  | storeFunct
  /-- Opcode 0x63 with funct3 other than 0, 1, 4, 5. -/
  | branchFunct
  deriving DecidableEq, Repr

/-- R81: selection inside opcode 0x33 by the pair (funct3, funct7). -/
def decodeOp (f : Fields) : Except Illegal Instr :=
  if f.funct3 = 0#3 ∧ f.funct7 = 0x00#7 then .ok (.add f.rd f.rs1 f.rs2)
  else if f.funct3 = 0#3 ∧ f.funct7 = 0x20#7 then .ok (.sub f.rd f.rs1 f.rs2)
  else if f.funct3 = 0#3 ∧ f.funct7 = 0x01#7 then .ok (.mul f.rd f.rs1 f.rs2)
  else if f.funct3 = 4#3 ∧ f.funct7 = 0x00#7 then .ok (.xor f.rd f.rs1 f.rs2)
  else if f.funct3 = 4#3 ∧ f.funct7 = 0x01#7 then .ok (.div f.rd f.rs1 f.rs2)
  else if f.funct3 = 6#3 ∧ f.funct7 = 0x00#7 then .ok (.or f.rd f.rs1 f.rs2)
  else if f.funct3 = 6#3 ∧ f.funct7 = 0x01#7 then .ok (.rem f.rd f.rs1 f.rs2)
  else if f.funct3 = 7#3 ∧ f.funct7 = 0x00#7 then .ok (.and f.rd f.rs1 f.rs2)
  else if f.funct3 = 1#3 ∧ f.funct7 = 0x00#7 then .ok (.sll f.rd f.rs1 f.rs2)
  else if f.funct3 = 2#3 ∧ f.funct7 = 0x00#7 then .ok (.slt f.rd f.rs1 f.rs2)
  else if f.funct3 = 5#3 ∧ f.funct7 = 0x00#7 then .ok (.srl f.rd f.rs1 f.rs2)
  else if f.funct3 = 5#3 ∧ f.funct7 = 0x20#7 then .ok (.sra f.rd f.rs1 f.rs2)
  else .error .opFunct

/-- The low `n` bits of the record's immediate: the operand field of the formats I, S, SB and UJ. -/
def Fields.immLow (f : Fields) (n : Nat) : BitVec n := f.imm.extractLsb' 0 n

/-- The `top` of the immediate, `imm[11:5]` (R82): the decoded `funct7` is zero under opcode 0x13 (90_conflicts.md C6). -/
def Fields.top (f : Fields) : BitVec 7 := f.imm.extractLsb' 5 7

/-- R82: selection inside opcode 0x13 by funct3, and by `top` for funct3 = 5 only. -/
def decodeOpImm (f : Fields) : Except Illegal Instr :=
  if f.funct3 = 0#3 then .ok (.addi f.rd f.rs1 (f.immLow 12))
  else if f.funct3 = 7#3 then .ok (.andi f.rd f.rs1 (f.immLow 12))
  else if f.funct3 = 6#3 then .ok (.ori f.rd f.rs1 (f.immLow 12))
  else if f.funct3 = 4#3 then .ok (.xori f.rd f.rs1 (f.immLow 12))
  else if f.funct3 = 2#3 then .ok (.slti f.rd f.rs1 (f.immLow 12))
  else if f.funct3 = 1#3 then .ok (.slli f.rd f.rs1 (f.immLow 12))
  else if f.funct3 = 5#3 ∧ f.top = 0x00#7 then .ok (.srli f.rd f.rs1 (f.immLow 5))
  else if f.funct3 = 5#3 ∧ f.top = 0x20#7 then .ok (.srai f.rd f.rs1 (f.immLow 5))
  else .error .opImmFunct

/-- The loads of R80: opcode 0x03, funct3 0, 1, 2. -/
def decodeLoad (f : Fields) : Except Illegal Instr :=
  if f.funct3 = 0#3 then .ok (.lb f.rd f.rs1 (f.immLow 12))
  else if f.funct3 = 1#3 then .ok (.lh f.rd f.rs1 (f.immLow 12))
  else if f.funct3 = 2#3 then .ok (.lw f.rd f.rs1 (f.immLow 12))
  else .error .loadFunct

/-- The stores of R80: opcode 0x23, funct3 0, 1, 2. -/
def decodeStore (f : Fields) : Except Illegal Instr :=
  if f.funct3 = 0#3 then .ok (.sb f.rs2 f.rs1 (f.immLow 12))
  else if f.funct3 = 1#3 then .ok (.sh f.rs2 f.rs1 (f.immLow 12))
  else if f.funct3 = 2#3 then .ok (.sw f.rs2 f.rs1 (f.immLow 12))
  else .error .storeFunct

/-- The branches of R80: opcode 0x63, funct3 0, 1, 4, 5. -/
def decodeBranch (f : Fields) : Except Illegal Instr :=
  if f.funct3 = 0#3 then .ok (.beq f.rs1 f.rs2 (f.immLow 13))
  else if f.funct3 = 1#3 then .ok (.bne f.rs1 f.rs2 (f.immLow 13))
  else if f.funct3 = 4#3 then .ok (.blt f.rs1 f.rs2 (f.immLow 13))
  else if f.funct3 = 5#3 then .ok (.bge f.rs1 f.rs2 (f.immLow 13))
  else .error .branchFunct

/-- R80, R83: selection by opcode, then inside the opcode. -/
def decodeFields (f : Fields) : Except Illegal Instr :=
  if f.opcode = 0x33#7 then decodeOp f
  else if f.opcode = 0x13#7 then decodeOpImm f
  else if f.opcode = 0x03#7 then decodeLoad f
  else if f.opcode = 0x23#7 then decodeStore f
  else if f.opcode = 0x63#7 then decodeBranch f
  else if f.opcode = 0x6F#7 then .ok (.jal f.rd (f.immLow 21))
  else if f.opcode = 0x67#7 then .ok (.jalr f.rd f.rs1 f.funct3 (f.immLow 12))
  else if f.opcode = 0x37#7 then .ok (.lui f.rd (f.imm.extractLsb' 12 20))
  else if f.opcode = 0x17#7 then .ok (.auipc f.rd (f.imm.extractLsb' 12 20))
  else .error .opcode

/-- The decoder: a word is an instruction of the core or is rejected by name (R80, R85). -/
def decode (w : Word) : Except Illegal Instr := decodeFields (fieldsOf w)

/-! ## Encoding -/

/-- Format R (R71). -/
def packR (funct7 : BitVec 7) (rs2 rs1 : RegIdx) (funct3 : BitVec 3) (rd : RegIdx) (opcode : BitVec 7) : Word :=
  funct7 ++ rs2 ++ rs1 ++ funct3 ++ rd ++ opcode

/-- Format I (R72). -/
def packI (imm : BitVec 12) (rs1 : RegIdx) (funct3 : BitVec 3) (rd : RegIdx) (opcode : BitVec 7) : Word :=
  imm ++ rs1 ++ funct3 ++ rd ++ opcode

/-- Format S (R73): `imm[11:5]` in 31..25, `imm[4:0]` in 11..7. -/
def packS (imm : BitVec 12) (rs2 rs1 : RegIdx) (funct3 : BitVec 3) (opcode : BitVec 7) : Word :=
  imm.extractLsb' 5 7 ++ rs2 ++ rs1 ++ funct3 ++ imm.extractLsb' 0 5 ++ opcode

/-- Format SB (R74): `imm[12]` in 31, `imm[10:5]` in 30..25, `imm[4:1]` in 11..8, `imm[11]` in 7. -/
def packSB (imm : BitVec 13) (rs2 rs1 : RegIdx) (funct3 : BitVec 3) (opcode : BitVec 7) : Word :=
  imm.extractLsb' 12 1 ++ imm.extractLsb' 5 6 ++ rs2 ++ rs1 ++ funct3 ++ imm.extractLsb' 1 4 ++ imm.extractLsb' 11 1 ++ opcode

/-- Format U (R75). -/
def packU (imm20 : BitVec 20) (rd : RegIdx) (opcode : BitVec 7) : Word := imm20 ++ rd ++ opcode

/-- Format UJ (R76): `imm[20]` in 31, `imm[10:1]` in 30..21, `imm[11]` in 20, `imm[19:12]` in 19..12. -/
def packUJ (imm : BitVec 21) (rd : RegIdx) (opcode : BitVec 7) : Word :=
  imm.extractLsb' 20 1 ++ imm.extractLsb' 1 10 ++ imm.extractLsb' 11 1 ++ imm.extractLsb' 12 8 ++ rd ++ opcode

/-- The word of an instruction (R80 with R71 to R76). An ill-formed term loses the bit its format cannot carry. -/
def encode : Instr → Word
  | .add rd rs1 rs2 => packR 0x00#7 rs2 rs1 0#3 rd 0x33#7
  | .sub rd rs1 rs2 => packR 0x20#7 rs2 rs1 0#3 rd 0x33#7
  | .xor rd rs1 rs2 => packR 0x00#7 rs2 rs1 4#3 rd 0x33#7
  | .or rd rs1 rs2 => packR 0x00#7 rs2 rs1 6#3 rd 0x33#7
  | .and rd rs1 rs2 => packR 0x00#7 rs2 rs1 7#3 rd 0x33#7
  | .sll rd rs1 rs2 => packR 0x00#7 rs2 rs1 1#3 rd 0x33#7
  | .slt rd rs1 rs2 => packR 0x00#7 rs2 rs1 2#3 rd 0x33#7
  | .srl rd rs1 rs2 => packR 0x00#7 rs2 rs1 5#3 rd 0x33#7
  | .sra rd rs1 rs2 => packR 0x20#7 rs2 rs1 5#3 rd 0x33#7
  | .mul rd rs1 rs2 => packR 0x01#7 rs2 rs1 0#3 rd 0x33#7
  | .div rd rs1 rs2 => packR 0x01#7 rs2 rs1 4#3 rd 0x33#7
  | .rem rd rs1 rs2 => packR 0x01#7 rs2 rs1 6#3 rd 0x33#7
  | .addi rd rs1 imm => packI imm rs1 0#3 rd 0x13#7
  | .andi rd rs1 imm => packI imm rs1 7#3 rd 0x13#7
  | .ori rd rs1 imm => packI imm rs1 6#3 rd 0x13#7
  | .xori rd rs1 imm => packI imm rs1 4#3 rd 0x13#7
  | .slti rd rs1 imm => packI imm rs1 2#3 rd 0x13#7
  | .slli rd rs1 imm => packI imm rs1 1#3 rd 0x13#7
  | .srli rd rs1 shamt => packI (0x00#7 ++ shamt) rs1 5#3 rd 0x13#7
  | .srai rd rs1 shamt => packI (0x20#7 ++ shamt) rs1 5#3 rd 0x13#7
  | .lb rd rs1 imm => packI imm rs1 0#3 rd 0x03#7
  | .lh rd rs1 imm => packI imm rs1 1#3 rd 0x03#7
  | .lw rd rs1 imm => packI imm rs1 2#3 rd 0x03#7
  | .sb rs2 rs1 imm => packS imm rs2 rs1 0#3 0x23#7
  | .sh rs2 rs1 imm => packS imm rs2 rs1 1#3 0x23#7
  | .sw rs2 rs1 imm => packS imm rs2 rs1 2#3 0x23#7
  | .beq rs1 rs2 imm => packSB imm rs2 rs1 0#3 0x63#7
  | .bne rs1 rs2 imm => packSB imm rs2 rs1 1#3 0x63#7
  | .blt rs1 rs2 imm => packSB imm rs2 rs1 4#3 0x63#7
  | .bge rs1 rs2 imm => packSB imm rs2 rs1 5#3 0x63#7
  | .jal rd imm => packUJ imm rd 0x6F#7
  | .jalr rd rs1 funct3 imm => packI imm rs1 funct3 rd 0x67#7
  | .lui rd imm20 => packU imm20 rd 0x37#7
  | .auipc rd imm20 => packU imm20 rd 0x17#7

/-! ## The opcode map as the spec tabulates it -/

/-- A row of the opcode map: a word is the row's instruction when `w & mask = pat` (R80). -/
structure OpcodeRow where
  mnemonic : String
  pat : Word
  mask : Word
  deriving DecidableEq, Repr

/-- The rows of R80 and spec/opcode_table.json for the opcode 0x33. -/
def opcodeRowsOp : List OpcodeRow :=
  [⟨"ADD", 0x00000033, 0xFE00707F⟩, ⟨"SUB", 0x40000033, 0xFE00707F⟩, ⟨"XOR", 0x00004033, 0xFE00707F⟩,
   ⟨"OR", 0x00006033, 0xFE00707F⟩, ⟨"AND", 0x00007033, 0xFE00707F⟩, ⟨"SLL", 0x00001033, 0xFE00707F⟩,
   ⟨"SLT", 0x00002033, 0xFE00707F⟩, ⟨"SRL", 0x00005033, 0xFE00707F⟩, ⟨"SRA", 0x40005033, 0xFE00707F⟩,
   ⟨"MUL", 0x02000033, 0xFE00707F⟩, ⟨"DIV", 0x02004033, 0xFE00707F⟩, ⟨"REM", 0x02006033, 0xFE00707F⟩]

/-- The rows of R80 and spec/opcode_table.json for the other opcodes. -/
def opcodeRowsOther : List OpcodeRow :=
  [⟨"ADDI", 0x00000013, 0x0000707F⟩, ⟨"ANDI", 0x00007013, 0x0000707F⟩, ⟨"ORI", 0x00006013, 0x0000707F⟩,
   ⟨"XORI", 0x00004013, 0x0000707F⟩, ⟨"SLTI", 0x00002013, 0x0000707F⟩, ⟨"SLLI", 0x00001013, 0x0000707F⟩,
   ⟨"SRLI", 0x00005013, 0xFE00707F⟩, ⟨"SRAI", 0x40005013, 0xFE00707F⟩, ⟨"LB", 0x00000003, 0x0000707F⟩,
   ⟨"LH", 0x00001003, 0x0000707F⟩, ⟨"LW", 0x00002003, 0x0000707F⟩, ⟨"SB", 0x00000023, 0x0000707F⟩,
   ⟨"SH", 0x00001023, 0x0000707F⟩, ⟨"SW", 0x00002023, 0x0000707F⟩, ⟨"BEQ", 0x00000063, 0x0000707F⟩,
   ⟨"BNE", 0x00001063, 0x0000707F⟩, ⟨"BLT", 0x00004063, 0x0000707F⟩, ⟨"BGE", 0x00005063, 0x0000707F⟩,
   ⟨"JAL", 0x0000006F, 0x0000007F⟩, ⟨"JALR", 0x00000067, 0x0000007F⟩, ⟨"LUI", 0x00000037, 0x0000007F⟩,
   ⟨"AUIPC", 0x00000017, 0x0000007F⟩]

/-- The whole opcode map, 34 rows (R80). -/
def opcodeRows : List OpcodeRow := opcodeRowsOp ++ opcodeRowsOther

/-- The table's name of an instruction (R80). -/
def Instr.mnemonic : Instr → String
  | .add .. => "ADD" | .sub .. => "SUB" | .xor .. => "XOR" | .or .. => "OR" | .and .. => "AND"
  | .sll .. => "SLL" | .slt .. => "SLT" | .srl .. => "SRL" | .sra .. => "SRA"
  | .mul .. => "MUL" | .div .. => "DIV" | .rem .. => "REM"
  | .addi .. => "ADDI" | .andi .. => "ANDI" | .ori .. => "ORI" | .xori .. => "XORI" | .slti .. => "SLTI"
  | .slli .. => "SLLI" | .srli .. => "SRLI" | .srai .. => "SRAI"
  | .lb .. => "LB" | .lh .. => "LH" | .lw .. => "LW" | .sb .. => "SB" | .sh .. => "SH" | .sw .. => "SW"
  | .beq .. => "BEQ" | .bne .. => "BNE" | .blt .. => "BLT" | .bge .. => "BGE"
  | .jal .. => "JAL" | .jalr .. => "JALR" | .lui .. => "LUI" | .auipc .. => "AUIPC"

/-- The first row of the opcode map that a word matches (R80). -/
def matchRow (w : Word) : Option OpcodeRow := opcodeRows.find? (fun r => w &&& r.mask == r.pat)

/-- The instruction the decoder reads from an instruction whose bits are `w`, numbered as spec/opcode_table.json numbers
them. The instruction memory holds whole words and `IR` bit 0 is the word's bit 0 (R49), so the number is the word. -/
def decodeTableWord (nbits w : Nat) : Option Instr := (decode (BitVec.ofNat 32 (w % 2 ^ nbits))).toOption

end Sys2Proof
end

