-- ==== Sys2Proof/Config.lean ====
section
/-! DEFINITION. The parameters the spec leaves OPEN (00_scope.md R9), as constants without a body: nothing can be
proved about their values, so a theorem holds whatever they are. -/

namespace Sys2Proof.Config

/-- `div_overflow = (quotient, remainder)`: what DIV and REM of -2^31 by -1 give (42_op_muldiv.md R132, R133, D5, U4).
The spec's default pair is not assumed. Log 6. -/
opaque divOverflow : Word × Word

/-- `invalid_load_value`: the value that the n-th refused load writes (44_load.md R154, D10, U2). Log 3. -/
opaque invalidLoadValue : Nat → Word

/-- `retired_width`: the width of the `retired` output (10_state.md R37, D19, U10). Log 7. -/
opaque retiredWidth : Nat

/-- What the `retired` output shows once the count no longer fits `retired_width` bits (U10). Log 7. -/
opaque retiredOverflow : Nat → BitVec retiredWidth

end Sys2Proof.Config
end

