-- ==== Sys2Proof/Machine/State.lean ====
section
/-! DEFINITION. The state of the core (10_state.md), as plain data, its value after reset (R38), and the reasons a step can
end without a next state. -/

namespace Sys2Proof.Machine

/-- A data memory: (address, byte) cells, addresses strictly rising, no cell equal to what an unlisted address reads as. -/
abbrev Memory := List Host.Cell

/-- What a byte that nothing has written reads as (20_memory.md R44: "bytes never written read back as zero"). -/
def Memory.unlisted : Byte := 0

/-- The canonical form of a data memory: equal memories are equal lists. -/
abbrev Memory.wf (m : Memory) : Prop :=
  m.Pairwise (fun p q => p.1 < q.1) ∧ ∀ c ∈ m, c.2 ≠ Memory.unlisted

/-- The instruction memory: (address, word) pairs, addresses strictly rising; an address not listed is `absent`
(10_state.md R32). A listed zero word is present: it is the sentinel and not a miss (30_encoding.md R84). Log 12. -/
abbrev InstrMem := List (Nat × Word)

/-- The canonical form of the instruction memory. -/
abbrev InstrMem.wf (m : InstrMem) : Prop := m.Pairwise (fun p q => p.1 < q.1)

/-- `halt_cause` (10_state.md R35). -/
inductive HaltCause where
  /-- NONE, set by reset. -/
  | none
  /-- FETCH_MISS, set by 40_cycle.md R101. -/
  | fetchMiss
  /-- SENTINEL, set by 40_cycle.md R102. -/
  | sentinel
  /-- ILLEGAL, set by 40_cycle.md R104. -/
  | illegal
  deriving DecidableEq, Repr

/-- The two-bit code of a halt cause (R35). -/
def HaltCause.code : HaltCause → BitVec 2
  | .none => 0
  | .fetchMiss => 1
  | .sentinel => 2
  | .illegal => 3

/-- The whole state of the core. -/
structure State where
  /-- The general registers `x[0]` to `x[31]` (R20). Read and written through `readReg` and `writeReg` (R21, R22). -/
  x : Vector Word 32
  /-- The program counter (R25). -/
  pc : Word
  /-- `IM`, the instruction segment [0, 0x10000000) (R32). -/
  im : InstrMem
  /-- `DM`, the data segment [0x10000000, 0x50000000) (R32). -/
  dm : Memory
  /-- `SM`, the stack segment [0x50000000, 0xFFFFFFFF] (R32). -/
  sm : Memory
  /-- `halted` (R35). -/
  halted : Bool
  /-- `halt_cause` (R35). -/
  haltCause : HaltCause
  /-- `err_mem_region`, sticky (R36). -/
  errMemRegion : Bool
  /-- `err_pulse`, the output of the last cycle that ran (R36). Log 8. -/
  errPulse : Bool
  /-- `retired`, unbounded (R37, U10). Log 7. -/
  retired : Nat
  /-- The model's own counter of the draws of `invalid_load_value` (44_load.md R154, U2). Log 3. -/
  draws : Nat
  deriving DecidableEq, Repr

/-- Why a step ends in a fault: nothing on this hardware does. Its five conditions (60_exceptions.md R180) either halt the
core, which is a next state with `halted` set (40_cycle.md R118), or let the instruction finish (R181). Safe: with no
constructor no claim can end in a fault. Log 1, log 2. -/
inductive Fault
  deriving DecidableEq, Repr

/-- Why the model gives no meaning. -/
inductive Refusal where
  /-- Raised by an arm of `exec` whose instruction has no meaning yet; no arm is in that case. Safe. -/
  | notModelled (mnemonic : String)
  /-- Raised by the image load port for an instruction address that is not a multiple of 4 (70_reset_and_hazards.md R205
  duty 1, U12: "a model refuses it"). Never raised by a step. Safe. Log 15. -/
  | imageMisaligned
  /-- Raised by the image load port for a data line whose four bytes would pass the end of a segment or of the address
  space (R205 duty 2, U12). Never raised by a step. Safe. Log 15. -/
  | imagePastSegmentEnd
  /-- Raised by the image load port once the first cycle has run: the image is loaded "never during a run" (R203, R207).
  Never raised by a step. Safe. Log 15. -/
  | imageDuringRun
  deriving DecidableEq, Repr

/-- The state right after reset, with no image loaded (R38): every register 0 except `x[2] = 0x7FFFFFFC`, `pc` 0, the
status clear. The image is loaded from outside (log 14). -/
def State.reset : State where
  x := (Vector.replicate 32 (0 : Word)).set 2 0x7FFFFFFC
  pc := 0
  im := []
  dm := []
  sm := []
  halted := false
  haltCause := .none
  errMemRegion := false
  errPulse := false
  retired := 0
  draws := 0

end Sys2Proof.Machine
end

