-- ==== Sys2Proof/Machine/Ops.lean ====
section
/-! DEFINITION. The named operations over registers, memory and status. Every read and write of the state by an instruction goes
through one of them. This core takes no exception (60_exceptions.md R181): what stands in that place is `State.halt`
(40_cycle.md R118) for the conditions that stop the core and `State.reportMemRegion` (R183) for the one that does not;
there is no return (R189). -/

namespace Sys2Proof.Machine

/-! ## Registers and pc -/

/-- `x[i]` (10_state.md R20, R21): register 0 reads 0. -/
def State.readReg (s : State) (r : RegIdx) : Word := if r = 0#5 then 0#32 else s.x[r.toNat]'r.isLt

/-- `x[i] <- v` (R22): a write to register 0 has no effect. -/
def State.writeReg (s : State) (r : RegIdx) (v : Word) : State :=
  if r = 0#5 then s else { s with x := s.x.set r.toNat v r.isLt }

/-- `pc <- t` (40_cycle.md R112). -/
def State.setPc (s : State) (t : Word) : State := { s with pc := t }

/-- `pc + 4`, modulo 2^32: the default next pc and the link value of a jump (R109, R110; 10_state.md R28). -/
def State.pcPlus4 (s : State) : Word := s.pc + 4

/-- `pc <- pc + 4` (R112). -/
def State.advance (s : State) : State := s.setPc s.pcPlus4

/-! ## Segments and bytes -/

/-- First address of the data segment (20_memory.md R41). -/
def dataBase : Nat := 0x10000000
/-- First address of the stack segment (R41; 90_conflicts.md C3). -/
def stackBase : Nat := 0x50000000
/-- One past the last address (R40, R41). -/
def addressEnd : Nat := 0x100000000

/-- The three segments (R41). -/
inductive Segment where
  | instruction | data | stack
  deriving DecidableEq, Repr

/-- Routing by address range and by nothing else (R42). -/
def segmentOf (a : Nat) : Segment :=
  if a < dataBase then .instruction else if a < stackBase then .data else .stack

/-- The byte at an address of a data memory; an unlisted address reads 0 (R44). -/
def Memory.read : Memory → Nat → Byte
  | [], _ => Memory.unlisted
  | (k, b) :: rest, a => if k = a then b else Memory.read rest a

/-- The data memory without the cells of an address. -/
def Memory.clear (m : Memory) (a : Nat) : Memory := m.filter (fun c => c.1 != a)

/-- A cell put in its place by address. -/
def Memory.insertCell : Memory → Nat → Byte → Memory
  | [], a, b => [(a, b)]
  | (k, c) :: rest, a, b => if a < k then (a, b) :: (k, c) :: rest else (k, c) :: Memory.insertCell rest a b

/-- The data memory with the byte at an address replaced, in canonical form: writing what an unlisted address reads as
removes the cell. -/
def Memory.write (m : Memory) (a : Nat) (b : Byte) : Memory :=
  if b = Memory.unlisted then Memory.clear m a else Memory.insertCell (Memory.clear m a) a b

/-- The word at an address of the instruction memory, or absent. -/
def InstrMem.read : InstrMem → Nat → Option Word
  | [], _ => none
  | (k, w) :: rest, a => if k = a then some w else InstrMem.read rest a

/-- The instruction memory with a word stored at an address, in canonical form. -/
def InstrMem.write : InstrMem → Nat → Word → InstrMem
  | [], a, w => [(a, w)]
  | (k, v) :: rest, a, w =>
    if a < k then (a, w) :: (k, v) :: rest
    else if a = k then (a, w) :: rest
    else (k, v) :: InstrMem.write rest a w

/-- The byte at an address at or above `dataBase`, routed by its own address: DM below 0x50000000, SM otherwise (R53). -/
def State.byteAt (s : State) (a : Nat) : Byte :=
  match segmentOf a with
  | .instruction | .data => s.dm.read a
  | .stack => s.sm.read a

/-- Write one byte, routed by its own address (R53). -/
def State.writeByte (s : State) (a : Nat) (b : Byte) : State :=
  match segmentOf a with
  | .instruction | .data => { s with dm := s.dm.write a b }
  | .stack => { s with sm := s.sm.write a b }

/-! ## The access primitives -/

/-- The access widths (R56). -/
inductive Width where
  | byte | half | word
  deriving DecidableEq, Repr

/-- Bytes of an access (R56). -/
def Width.bytes : Width → Nat
  | .byte => 1
  | .half => 2
  | .word => 4

/-- Bits of an access. -/
def Width.bits : Width → Nat
  | .byte => 8
  | .half => 16
  | .word => 32

/-- R50, R51: the access is MemoryRegionInvalid: the address lies in the instruction segment, or the bytes would pass
0xFFFFFFFF. The test is on the effective address, not on each byte (R52). -/
def accessRefused (addr : Word) (n : Nat) : Bool := addr.toNat < dataBase || addressEnd < addr.toNat + n

/-- R48: the little-endian value of the consecutive bytes at `a`. -/
def State.readLE (s : State) (a : Nat) : (w : Width) → BitVec w.bits
  | .byte => s.byteAt a
  | .half => s.byteAt (a + 1) ++ s.byteAt a
  | .word => s.byteAt (a + 3) ++ s.byteAt (a + 2) ++ s.byteAt (a + 1) ++ s.byteAt a

/-- R51: byte `a + i <- v[8i+7 : 8i]` for the `n` low bytes of `v`. -/
def State.writeLE (s : State) (a : Nat) (v : Word) : Nat → State
  | 0 => s
  | n + 1 => (s.writeLE a v n).writeByte (a + n) (v.extractLsb' (8 * n) 8)

/-- `MemRead(addr, n)` (R50): the value, or nothing where MemoryRegionInvalid is raised. -/
def State.memRead (s : State) (addr : Word) (w : Width) : Option (BitVec w.bits) :=
  if accessRefused addr w.bytes then none else some (s.readLE addr.toNat w)

/-- MemoryRegionInvalid is reported (R52, R183): the sticky bit is set and the pulse raised; nothing else changes. -/
def State.reportMemRegion (s : State) : State := { s with errMemRegion := true, errPulse := true }

/-- `MemWrite(addr, n, v)` (R51): all the bytes are written, or MemoryRegionInvalid is reported and none is. -/
def State.memWrite (s : State) (addr : Word) (w : Width) (v : Word) : State :=
  if accessRefused addr w.bytes then s.reportMemRegion else s.writeLE addr.toNat v w.bytes

/-- The value of a refused load (44_load.md R154): a fresh draw of the open parameter, any 32-bit value. Log 3, log 4. -/
def State.invalidLoad (s : State) : Word := Config.invalidLoadValue s.draws

/-- The next refused load draws anew (U2: "one fresh 32-bit draw per occurrence"). -/
def State.countDraw (s : State) : State := { s with draws := s.draws + 1 }

/-! ## Fetch, halt and retirement -/

/-- An address at which the instruction memory can hold a word: a multiple of 4 in the instruction segment (20_memory.md R45). -/
def fetchable (a : Word) : Bool := a.toNat % 4 = 0 && segmentOf a.toNat = .instruction

/-- `IFetch(addr)` (R46): the stored word or absent. Any address that is not `fetchable` is absent (R45, R55). -/
def State.ifetch (s : State) (a : Word) : Option Word := if fetchable a then s.im.read a.toNat else none

/-- `halt(cause)` (40_cycle.md R118): nothing else changes; `pc` keeps the address. -/
def State.halt (s : State) (cause : HaltCause) : State := { s with halted := true, haltCause := cause }

/-- A cycle begins: `err_pulse` is 1 only in the cycle of a report (10_state.md R36). Log 8. -/
def State.beginCycle (s : State) : State := { s with errPulse := false }

/-- `retired <- retired + 1`, the last action of a cycle that runs to its end (R100, R113). -/
def State.retire (s : State) : State := { s with retired := s.retired + 1 }

end Sys2Proof.Machine
end

