-- ==== Sys2Proof/Machine/Operands.lean ====
section
/-! DEFINITION. Every operand form of the core (40_cycle.md R105 to R107, 30_encoding.md R79): two registers, a register and a
sign-extended immediate, base plus displacement, an offset from the pc, an upper immediate. -/

namespace Sys2Proof.Machine

/-- `sext_12` of the immediate field of the formats I and S (R79). -/
def imm12 (imm : BitVec 12) : Word := imm.signExtend 32

/-- `sext_13` of the SB immediate (R79). -/
def imm13 (imm : BitVec 13) : Word := imm.signExtend 32

/-- `sext_21` of the UJ immediate (R79). -/
def imm21 (imm : BitVec 21) : Word := imm.signExtend 32

/-- The U immediate `IR[31:12] ++ 0x000` (R79, 48_upper.md R175). -/
def immUpper (imm20 : BitVec 20) : Word := imm20 ++ 0#12

/-- The shift amount of SLLI, `imm[4:0]` (R72, 43_op_imm.md R146). -/
def shamtOf (imm : BitVec 12) : BitVec 5 := imm.extractLsb' 0 5

/-- "Shifts mask the shift amount to 5 bits": `v[4:0]` (41_op_reg.md R126, 40_cycle.md R109). -/
def shiftAmount (v : Word) : BitVec 5 := v.extractLsb' 0 5

/-- The effective address of a load or a store, `x[rs1] + sext_12(imm)` modulo 2^32 (44_load.md R150, 45_store.md R155). -/
def State.effAddr (s : State) (rs1 : RegIdx) (imm : BitVec 12) : Word := s.readReg rs1 + imm12 imm

/-- The target of a taken branch, `pc + imm` modulo 2^32, from the branch's own address (46_branch.md R160). -/
def State.branchTarget (s : State) (imm : BitVec 13) : Word := s.pc + imm13 imm

/-- The target of JAL, `pc + imm` modulo 2^32 (47_jump.md R171). -/
def State.jalTarget (s : State) (imm : BitVec 21) : Word := s.pc + imm21 imm

/-- The target of JALR, `(x[rs1] + imm) & 0xFFFFFFFE` (R172). -/
def State.jalrTarget (s : State) (rs1 : RegIdx) (imm : BitVec 12) : Word :=
  (s.readReg rs1 + imm12 imm) &&& 0xFFFFFFFE#32

end Sys2Proof.Machine
end

