-- ==== Sys2Proof/Machine/Flags.lean ====
section
/-! DEFINITION. The core has no condition codes and no status flags (10_state.md R29): what other machines compute into flags is
here the comparison of two registers that a branch or a set-less-than makes. -/

namespace Sys2Proof.Machine

/-- Equality of all 32 bits (46_branch.md R161, R162). -/
def isEqual (a b : Word) : Bool := a == b

/-- Signed less-than (46_branch.md R163; 41_op_reg.md R127, D6). -/
def isLessSigned (a b : Word) : Bool := decide (a.toInt < b.toInt)

/-- The result of a set-less-than: 1 or 0 (R127). -/
def boolWord (b : Bool) : Word := if b then 1#32 else 0#32

end Sys2Proof.Machine
end

