-- ==== Sys2Proof/Machine/Branch.lean ====
section
/-! DEFINITION. The conditional branches (46_branch.md). -/

namespace Sys2Proof.Machine

/-- The shape of a branch (R160): `pc + imm` from the branch's own address if taken, else `pc + 4`; nothing else changes. -/
def State.branch (s : State) (taken : Bool) (imm : BitVec 13) : State :=
  s.setPc (if taken then s.branchTarget imm else s.pcPlus4)

/-- BEQ (R161) -/
def execBeq (rs1 rs2 : RegIdx) (imm : BitVec 13) (s : State) : Host.Outcome State Fault Refusal :=
  .next (s.branch (isEqual (s.readReg rs1) (s.readReg rs2)) imm)

/-- BNE (R162) -/
def execBne (rs1 rs2 : RegIdx) (imm : BitVec 13) (s : State) : Host.Outcome State Fault Refusal :=
  .next (s.branch (!isEqual (s.readReg rs1) (s.readReg rs2)) imm)

/-- BLT (R163) -/
def execBlt (rs1 rs2 : RegIdx) (imm : BitVec 13) (s : State) : Host.Outcome State Fault Refusal :=
  .next (s.branch (isLessSigned (s.readReg rs1) (s.readReg rs2)) imm)

/-- BGE (R164) -/
def execBge (rs1 rs2 : RegIdx) (imm : BitVec 13) (s : State) : Host.Outcome State Fault Refusal :=
  .next (s.branch (!isLessSigned (s.readReg rs1) (s.readReg rs2)) imm)

end Sys2Proof.Machine
end

