-- ==== Sys2Proof/Machine/Jump.lean ====
section
/-! DEFINITION. The jumps (47_jump.md). -/

namespace Sys2Proof.Machine

/-- The shape of a jump (R170): the link `pc + 4` to `rd`, then the pc to a target computed from the old registers. -/
def State.jump (s : State) (rd : RegIdx) (target : Word) : State := (s.writeReg rd s.pcPlus4).setPc target

/-- JAL (R171) -/
def execJal (rd : RegIdx) (imm : BitVec 21) (s : State) : Host.Outcome State Fault Refusal :=
  .next (s.jump rd (s.jalTarget imm))

/-- JALR (R172): `funct3` is not examined (30_encoding.md R83, U8). Log 11. -/
def execJalr (rd rs1 : RegIdx) (_funct3 : BitVec 3) (imm : BitVec 12) (s : State) : Host.Outcome State Fault Refusal :=
  .next (s.jump rd (s.jalrTarget rs1 imm))

end Sys2Proof.Machine
end

