-- ==== Sys2Proof/Machine/Alu.lean ====
section
/-! DEFINITION. The results of the ALU (41_op_reg.md, 42_op_muldiv.md, 43_op_imm.md) and the one shape of the instructions that
write an ALU result: read the operands, write `rd`, advance the pc (R120, R130, R140). -/

namespace Sys2Proof.Machine

/-- R121, R141: the low 32 bits of the sum. -/
def aluAdd (a b : Word) : Word := a + b
/-- R122: the low 32 bits of the difference. -/
def aluSub (a b : Word) : Word := a - b
/-- R123, R144 -/
def aluXor (a b : Word) : Word := a ^^^ b
/-- R124, R143 -/
def aluOr (a b : Word) : Word := a ||| b
/-- R125, R142 -/
def aluAnd (a b : Word) : Word := a &&& b
/-- R126, R146: zeros enter at bit 0. -/
def aluSll (a : Word) (sh : BitVec 5) : Word := a <<< sh.toNat
/-- R128, R147: zeros enter at bit 31. -/
def aluSrl (a : Word) (sh : BitVec 5) : Word := a >>> sh.toNat
/-- R129, R148: copies of bit 31 enter at bit 31. -/
def aluSra (a : Word) (sh : BitVec 5) : Word := a.sshiftRight sh.toNat
/-- R127, R145: signed set-less-than. -/
def aluSlt (a b : Word) : Word := boolWord (isLessSigned a b)
/-- R131: the low 32 bits of the product. -/
def aluMul (a b : Word) : Word := a * b

/-- The operands -2^31 and -1, whose quotient does not fit (R132, D5). -/
def isDivOverflow (a b : Word) : Bool := a == 0x80000000#32 && b == 0xFFFFFFFF#32

/-- R132: 0 for a zero divisor; the open pair for -2^31 by -1; else the quotient rounded toward zero. -/
def aluDiv (a b : Word) : Word :=
  if b = 0#32 then 0#32
  else if isDivOverflow a b then Config.divOverflow.1
  else BitVec.ofInt 32 (a.toInt.tdiv b.toInt)

/-- R133: 0 for a zero divisor; the open pair for -2^31 by -1; else `a - b * trunc(a / b)`. -/
def aluRem (a b : Word) : Word :=
  if b = 0#32 then 0#32
  else if isDivOverflow a b then Config.divOverflow.2
  else BitVec.ofInt 32 (a.toInt - b.toInt * a.toInt.tdiv b.toInt)

/-- An instruction that retires with a result: `x[rd] <- v; pc <- pc + 4` (40_cycle.md R111, R112). -/
def State.writeResult (s : State) (rd : RegIdx) (v : Word) : State := (s.writeReg rd v).advance

/-- The register-register shape (R120, R130): both operands are read before the write (40_cycle.md R108). -/
def State.aluRegReg (s : State) (op : Word → Word → Word) (rd rs1 rs2 : RegIdx) : State :=
  s.writeResult rd (op (s.readReg rs1) (s.readReg rs2))

/-- The register-immediate shape (R140): the immediate is sign-extended for every one of them. -/
def State.aluRegImm (s : State) (op : Word → Word → Word) (rd rs1 : RegIdx) (imm : BitVec 12) : State :=
  s.writeResult rd (op (s.readReg rs1) (imm12 imm))

end Sys2Proof.Machine
end

