-- ==== Sys2Proof/Machine/Load.lean ====
section
/-! DEFINITION. The loads (44_load.md). -/

namespace Sys2Proof.Machine

/-- The shape of a load (R150): the address comes from the old base; a value read is sign-extended; a refused access is
reported and the register write still happens, with a value the spec leaves open (R154). -/
def State.load (s : State) (w : Width) (rd rs1 : RegIdx) (imm : BitVec 12) : State :=
  match s.memRead (s.effAddr rs1 imm) w with
  | some v => s.writeResult rd (v.signExtend 32)
  | none => (s.reportMemRegion.writeResult rd s.invalidLoad).countDraw

/-- LB (R151) -/
def execLb (rd rs1 : RegIdx) (imm : BitVec 12) (s : State) : Host.Outcome State Fault Refusal :=
  .next (s.load .byte rd rs1 imm)

/-- LH (R152) -/
def execLh (rd rs1 : RegIdx) (imm : BitVec 12) (s : State) : Host.Outcome State Fault Refusal :=
  .next (s.load .half rd rs1 imm)

/-- LW (R153) -/
def execLw (rd rs1 : RegIdx) (imm : BitVec 12) (s : State) : Host.Outcome State Fault Refusal :=
  .next (s.load .word rd rs1 imm)

end Sys2Proof.Machine
end

