-- ==== Sys2Proof/Machine/MulDiv.lean ====
section
/-! DEFINITION. Multiply, divide and remainder (42_op_muldiv.md). DivideByZero is only a name for the result 0: nothing is
recorded (60_exceptions.md R184). -/

namespace Sys2Proof.Machine

/-- MUL (R131) -/
def execMul (rd rs1 rs2 : RegIdx) (s : State) : Host.Outcome State Fault Refusal :=
  .next (s.aluRegReg aluMul rd rs1 rs2)

/-- DIV (R132) -/
def execDiv (rd rs1 rs2 : RegIdx) (s : State) : Host.Outcome State Fault Refusal :=
  .next (s.aluRegReg aluDiv rd rs1 rs2)

/-- REM (R133) -/
def execRem (rd rs1 rs2 : RegIdx) (s : State) : Host.Outcome State Fault Refusal :=
  .next (s.aluRegReg aluRem rd rs1 rs2)

end Sys2Proof.Machine
end

