-- ==== Sys2Proof/Machine/OpImm.lean ====
section
/-! DEFINITION. The register-immediate ALU instructions (43_op_imm.md). -/

namespace Sys2Proof.Machine

/-- ADDI (R141) -/
def execAddi (rd rs1 : RegIdx) (imm : BitVec 12) (s : State) : Host.Outcome State Fault Refusal :=
  .next (s.aluRegImm aluAdd rd rs1 imm)

/-- ANDI (R142) -/
def execAndi (rd rs1 : RegIdx) (imm : BitVec 12) (s : State) : Host.Outcome State Fault Refusal :=
  .next (s.aluRegImm aluAnd rd rs1 imm)

/-- ORI (R143) -/
def execOri (rd rs1 : RegIdx) (imm : BitVec 12) (s : State) : Host.Outcome State Fault Refusal :=
  .next (s.aluRegImm aluOr rd rs1 imm)

/-- XORI (R144) -/
def execXori (rd rs1 : RegIdx) (imm : BitVec 12) (s : State) : Host.Outcome State Fault Refusal :=
  .next (s.aluRegImm aluXor rd rs1 imm)

/-- SLTI (R145) -/
def execSlti (rd rs1 : RegIdx) (imm : BitVec 12) (s : State) : Host.Outcome State Fault Refusal :=
  .next (s.aluRegImm aluSlt rd rs1 imm)

/-- SLLI (R146): the amount is `imm[4:0]`; `imm[11:5]` is ignored. -/
def execSlli (rd rs1 : RegIdx) (imm : BitVec 12) (s : State) : Host.Outcome State Fault Refusal :=
  .next (s.writeResult rd (aluSll (s.readReg rs1) (shamtOf imm)))

/-- SRLI (R147) -/
def execSrli (rd rs1 : RegIdx) (shamt : BitVec 5) (s : State) : Host.Outcome State Fault Refusal :=
  .next (s.writeResult rd (aluSrl (s.readReg rs1) shamt))

/-- SRAI (R148) -/
def execSrai (rd rs1 : RegIdx) (shamt : BitVec 5) (s : State) : Host.Outcome State Fault Refusal :=
  .next (s.writeResult rd (aluSra (s.readReg rs1) shamt))

end Sys2Proof.Machine
end

