-- ==== Sys2Proof/Machine/OpReg.lean ====
section
/-! DEFINITION. The register-register ALU instructions (41_op_reg.md). -/

namespace Sys2Proof.Machine

/-- ADD (R121) -/
def execAdd (rd rs1 rs2 : RegIdx) (s : State) : Host.Outcome State Fault Refusal :=
  .next (s.aluRegReg aluAdd rd rs1 rs2)

/-- SUB (R122) -/
def execSub (rd rs1 rs2 : RegIdx) (s : State) : Host.Outcome State Fault Refusal :=
  .next (s.aluRegReg aluSub rd rs1 rs2)

/-- XOR (R123) -/
def execXor (rd rs1 rs2 : RegIdx) (s : State) : Host.Outcome State Fault Refusal :=
  .next (s.aluRegReg aluXor rd rs1 rs2)

/-- OR (R124) -/
def execOr (rd rs1 rs2 : RegIdx) (s : State) : Host.Outcome State Fault Refusal :=
  .next (s.aluRegReg aluOr rd rs1 rs2)

/-- AND (R125) -/
def execAnd (rd rs1 rs2 : RegIdx) (s : State) : Host.Outcome State Fault Refusal :=
  .next (s.aluRegReg aluAnd rd rs1 rs2)

/-- SLL (R126): the amount is `x[rs2][4:0]`. -/
def execSll (rd rs1 rs2 : RegIdx) (s : State) : Host.Outcome State Fault Refusal :=
  .next (s.aluRegReg (fun a b => aluSll a (shiftAmount b)) rd rs1 rs2)

/-- SLT (R127) -/
def execSlt (rd rs1 rs2 : RegIdx) (s : State) : Host.Outcome State Fault Refusal :=
  .next (s.aluRegReg aluSlt rd rs1 rs2)

/-- SRL (R128) -/
def execSrl (rd rs1 rs2 : RegIdx) (s : State) : Host.Outcome State Fault Refusal :=
  .next (s.aluRegReg (fun a b => aluSrl a (shiftAmount b)) rd rs1 rs2)

/-- SRA (R129) -/
def execSra (rd rs1 rs2 : RegIdx) (s : State) : Host.Outcome State Fault Refusal :=
  .next (s.aluRegReg (fun a b => aluSra a (shiftAmount b)) rd rs1 rs2)

end Sys2Proof.Machine
end

