-- ==== Sys2Proof/Machine/Store.lean ====
section
/-! DEFINITION. The stores (45_store.md). -/

namespace Sys2Proof.Machine

/-- The shape of a store (R155): the low bytes of `x[rs2]` are written, or the access is reported and nothing is; no
register changes. -/
def State.store (s : State) (w : Width) (rs2 rs1 : RegIdx) (imm : BitVec 12) : State :=
  (s.memWrite (s.effAddr rs1 imm) w (s.readReg rs2)).advance

/-- SB (R156) -/
def execSb (rs2 rs1 : RegIdx) (imm : BitVec 12) (s : State) : Host.Outcome State Fault Refusal :=
  .next (s.store .byte rs2 rs1 imm)

/-- SH (R157) -/
def execSh (rs2 rs1 : RegIdx) (imm : BitVec 12) (s : State) : Host.Outcome State Fault Refusal :=
  .next (s.store .half rs2 rs1 imm)

/-- SW (R158) -/
def execSw (rs2 rs1 : RegIdx) (imm : BitVec 12) (s : State) : Host.Outcome State Fault Refusal :=
  .next (s.store .word rs2 rs1 imm)

end Sys2Proof.Machine
end

