-- ==== Sys2Proof/Machine/Upper.lean ====
section
/-! DEFINITION. The upper-immediate instructions (48_upper.md). -/

namespace Sys2Proof.Machine

/-- LUI (R176) -/
def execLui (rd : RegIdx) (imm20 : BitVec 20) (s : State) : Host.Outcome State Fault Refusal :=
  .next (s.writeResult rd (immUpper imm20))

/-- AUIPC (R177): the sum with the address of the AUIPC itself, modulo 2^32. -/
def execAuipc (rd : RegIdx) (imm20 : BitVec 20) (s : State) : Host.Outcome State Fault Refusal :=
  .next (s.writeResult rd (aluAdd s.pc (immUpper imm20)))

end Sys2Proof.Machine
end

