-- ==== Sys2Proof/Machine/Cycle.lean ====
section
/-! DEFINITION. The instruction cycle (40_cycle.md R100 to R118): fetch, the two halting tests of fetch, decode and its halting
test, the instruction, retirement. -/

namespace Sys2Proof.Machine

/-- The instruction's next state retires (R113); a fault or a refusal stays one. -/
def retireOutcome : Host.Outcome State Fault Refusal → Host.Outcome State Fault Refusal
  | .next t => .next t.retire
  | .fault r => .fault r
  | .refused r => .refused r

/-- What fetch and decode find at the pc: the order of the tests is FetchMiss, Sentinel, Illegal (60_exceptions.md R187). -/
inductive Fetched where
  /-- The cycle halts with the cause (R101, R102, R104). -/
  | halt (cause : HaltCause)
  /-- The cycle executes the instruction. -/
  | run (i : Instr)
  deriving DecidableEq, Repr

/-- Fetch and decode (R101 to R104). -/
def State.fetchDecode (s : State) : Fetched :=
  match s.ifetch s.pc with
  | none => .halt .fetchMiss
  | some w =>
    if w = 0#32 then .halt .sentinel
    else match decode w with
      | .error _ => .halt .illegal
      | .ok i => .run i

/-- One cycle of a core that is not halted (R100). -/
def State.cycle (s : State) : Host.Outcome State Fault Refusal :=
  match s.fetchDecode with
  | .halt cause => .next (s.beginCycle.halt cause)
  | .run i => retireOutcome (exec i s.beginCycle)

/-- While `halted = 1` no cycle runs and no state changes (10_state.md R35); otherwise one cycle. Log 2. -/
def State.stepCycle (s : State) : Host.Outcome State Fault Refusal :=
  if s.halted then .next s else s.cycle

/-- The state with a word stored where the next cycle fetches. A pc at which no word can be stored (20_memory.md R45) is
set to 0, the reset pc, and a halted core is released. Log 21. -/
def State.placeFetchWord (s : State) (w : Word) : State :=
  let a : Word := if fetchable s.pc then s.pc else 0#32
  { s with pc := a, im := s.im.write a.toNat w, halted := false, haltCause := .none }

end Sys2Proof.Machine
end

