-- ==== Sys2Proof/Machine/Step.lean ====
section
/-! DEFINITION. One step of the machine, and a word placed where the step fetches. -/

namespace Sys2Proof.Machine

/-- The step function (40_cycle.md R114). -/
def step (s : State) : Host.Outcome State Fault Refusal := s.stepCycle

/-- `s` with the instruction whose bits are `w` stored where `step` fetches its next instruction. Log 21. -/
def State.withFetchWord (s : State) (nbits w : Nat) : State := s.placeFetchWord (BitVec.ofNat 32 (w % 2 ^ nbits))

end Sys2Proof.Machine
end

