-- ==== Sys2Proof/Machine/Datapath.lean ====
section
/-! DEFINITION. The step function as 40_cycle.md R114 writes it, over the decoder's record and the values RA, RB, RM, RY of one
cycle (R105 to R111), with the opcode map of R80 deciding what is illegal. `step` does not use it: it is the spec's
other reading of the same machine, to be proved equal to `step`. The latches are local values and no state (10_state.md
R34). -/

namespace Sys2Proof.Machine

/-- R105: `RA <- pc` for AUIPC, else `x[rs1]`. -/
def selectRA (s : State) (f : Fields) : Word := if f.opcode = 0x17#7 then s.pc else s.readReg f.rs1

/-- R106: `RB <- imm` for the six opcodes with an immediate operand, else `x[rs2]`. -/
def selectRB (s : State) (f : Fields) : Word :=
  if f.opcode ∈ [0x13#7, 0x03#7, 0x67#7, 0x37#7, 0x23#7, 0x17#7] then f.imm else s.readReg f.rs2

/-- R107: `RM <- x[rs2]`: store data and the right-hand side of a branch. -/
def selectRM (s : State) (f : Fields) : Word := s.readReg f.rs2

/-- The ALU for the opcodes 0x33 (R81) and 0x13 (R82). -/
def aluSelect (f : Fields) (ra rb : Word) : Word :=
  let register : Bool := f.opcode = 0x33#7
  match f.funct3.toNat with
  | 0 =>
    if register then
      if f.funct7 = 0x20#7 then aluSub ra rb else if f.funct7 = 0x01#7 then aluMul ra rb else aluAdd ra rb
    else aluAdd ra rb
  | 1 => aluSll ra (shiftAmount rb)
  | 2 => aluSlt ra rb
  | 4 => if register && f.funct7 = 0x01#7 then aluDiv ra rb else aluXor ra rb
  | 5 =>
    if (if register then f.funct7 else f.top) = 0x20#7 then aluSra ra (shiftAmount rb) else aluSrl ra (shiftAmount rb)
  | 6 => if register && f.funct7 = 0x01#7 then aluRem ra rb else aluOr ra rb
  | _ => aluAnd ra rb

/-- The condition of a branch (46_branch.md R160: RA against RM). -/
def branchTaken (f : Fields) (ra rm : Word) : Bool :=
  match f.funct3.toNat with
  | 0 => isEqual ra rm
  | 1 => !isEqual ra rm
  | 4 => isLessSigned ra rm
  | _ => !isLessSigned ra rm

/-- The width of a load or a store by funct3 (R80). -/
def widthOf (funct3 : BitVec 3) : Width :=
  match funct3.toNat with
  | 0 => .byte
  | 1 => .half
  | _ => .word

/-- What the execute part of a cycle hands on: the state after the memory access, `RY` and `nextPC` (R109). -/
structure Executed where
  state : State
  ry : Word
  nextPC : Word

/-- The load of R114: `RY = MDR`, or the open value where the access is refused (44_load.md R154). -/
def datapathLoad (s : State) (addr : Word) (w : Width) (nextPC : Word) : Executed :=
  match s.memRead addr w with
  | some v => ⟨s, v.signExtend 32, nextPC⟩
  | none => ⟨s.reportMemRegion.countDraw, s.invalidLoad, nextPC⟩

/-- The `case opcode` of R114. -/
def datapathExecute (s : State) (f : Fields) : Executed :=
  let ra := selectRA s f
  let rb := selectRB s f
  let rm := selectRM s f
  let next := s.pcPlus4
  if f.opcode = 0x33#7 ∨ f.opcode = 0x13#7 then ⟨s, aluSelect f ra rb, next⟩
  else if f.opcode = 0x03#7 then datapathLoad s (ra + f.imm) (widthOf f.funct3) next
  else if f.opcode = 0x23#7 then ⟨s.memWrite (ra + f.imm) (widthOf f.funct3) rm, 0#32, next⟩
  else if f.opcode = 0x63#7 then ⟨s, 0#32, if branchTaken f ra rm then s.pc + f.imm else next⟩
  else if f.opcode = 0x6F#7 then ⟨s, next, s.pc + f.imm⟩
  else if f.opcode = 0x67#7 then ⟨s, next, (ra + f.imm) &&& 0xFFFFFFFE#32⟩
  else if f.opcode = 0x37#7 then ⟨s, f.imm, next⟩
  else ⟨s, ra + f.imm, next⟩

/-- The writeback set (R111). -/
def writesBack (opcode : BitVec 7) : Bool := opcode ∈ [0x33#7, 0x13#7, 0x17#7, 0x37#7, 0x03#7, 0x6F#7, 0x67#7]

/-- Execute, writeback, advance, retire (R109 to R112). -/
def datapathRetire (s : State) (f : Fields) : State :=
  let e := datapathExecute s f
  let t := if writesBack f.opcode then e.state.writeReg f.rd e.ry else e.state
  (t.setPc e.nextPC).retire

/-- R114 in one piece. -/
def datapathStep (s : State) : Host.Outcome State Fault Refusal :=
  if s.halted then .next s
  else match s.ifetch s.pc with
    | none => .next (s.beginCycle.halt .fetchMiss)
    | some w =>
      if w = 0#32 then .next (s.beginCycle.halt .sentinel)
      else if (matchRow w).isNone then .next (s.beginCycle.halt .illegal)
      else .next (datapathRetire s.beginCycle (fieldsOf w))

end Sys2Proof.Machine
end

