-- ==== Sys2Proof/Machine/HostPort.lean ====
section
/-! DEFINITION. What the host can do to the core between cycles (60_exceptions.md R195, 70_reset_and_hazards.md R200 to R207):
reset it, load the image before the first cycle, let it run or not, read its outputs. -/

namespace Sys2Proof.Machine

/-- The reset input (R200): registers, pc and status take the values of 10_state.md R38; memory is untouched (R201). The
draw counter is the model's own and goes on, so that a draw after a reset is fresh. Log 16. -/
def State.hostReset (s : State) : State :=
  { State.reset with im := s.im, dm := s.dm, sm := s.sm, draws := s.draws }

/-- The core stands before its first cycle since reset: nothing has retired and it has not halted (R203, R207). -/
def State.beforeFirstCycle (s : State) : Bool := s.retired = 0 && !s.halted

/-- The end of the data-memory segment an address lies in (R41). -/
def segmentEnd (a : Nat) : Nat := if segmentOf a = .data then stackBase else addressEnd

/-- The image load port (R204): an address below 0x10000000 takes the whole word; any other takes "four little-endian
bytes". Images outside R205 and loads during a run are refused. Log 15. -/
def State.loadCell (s : State) (addr data : Word) : Host.Outcome State Fault Refusal :=
  if !s.beforeFirstCycle then .refused .imageDuringRun
  else if segmentOf addr.toNat = .instruction then
    if addr.toNat % 4 = 0 then .next { s with im := s.im.write addr.toNat data } else .refused .imageMisaligned
  else if segmentEnd addr.toNat < addr.toNat + 4 then .refused .imagePastSegmentEnd
  else .next (s.writeLE addr.toNat data 4)

/-- A start image: (address, value) pairs in file order (R203, R204). -/
abbrev Image := List (Word × Word)

/-- The image is loaded line by line; a later line overwrites an earlier one (R204). -/
def State.loadImage (s : State) : Image → Host.Outcome State Fault Refusal
  | [] => .next s
  | (addr, data) :: rest =>
    match s.loadCell addr data with
    | .next t => t.loadImage rest
    | .fault r => .fault r
    | .refused r => .refused r

/-- One clock edge with the run-control input (R195, R207): a cycle starts only when `run = 1` and `halted = 0`. -/
def clockEdge (run : Bool) (s : State) : Host.Outcome State Fault Refusal := if run then step s else .next s

/-- The `retired` output (10_state.md R37): the count where it fits the open width, and open beyond (U10). Log 7. -/
def State.retiredPort (s : State) : BitVec Config.retiredWidth :=
  if s.retired < 2 ^ Config.retiredWidth then BitVec.ofNat _ s.retired else Config.retiredOverflow s.retired

end Sys2Proof.Machine
end

