-- ==== Sys2Proof/Safety.lean ====
section
/-! DEFINITION. What claims call a good state and a good end of a run. -/

namespace Sys2Proof.Machine

/-- Register 0 holds zero (40_cycle.md R117, invariant 1). -/
abbrev State.zeroRegister (s : State) : Prop := s.x[0] = 0

/-- The instruction memory is in canonical form and keyed at word-aligned addresses of its segment only (20_memory.md R45). -/
abbrev State.instrMemWf (s : State) : Prop :=
  InstrMem.wf s.im ∧ ∀ c ∈ s.im, c.1 % 4 = 0 ∧ c.1 < dataBase

/-- The data memories are in canonical form and each holds addresses of its own segment only (20_memory.md R41, R53). -/
abbrev State.dataMemWf (s : State) : Prop :=
  Memory.wf s.dm ∧ (∀ c ∈ s.dm, dataBase ≤ c.1 ∧ c.1 < stackBase) ∧
  Memory.wf s.sm ∧ (∀ c ∈ s.sm, stackBase ≤ c.1 ∧ c.1 < addressEnd)

/-- The pc is even: branch and JAL offsets are even and JALR clears bit 0 (10_state.md R27). -/
abbrev State.pcEven (s : State) : Prop := s.pc.getLsbD 0 = false

/-- The status fields agree with each other (10_state.md R35, R36): a cause is named exactly when the core is halted, the
pulse is down in a halted core, and a pulse leaves the sticky bit set. -/
abbrev State.statusWf (s : State) : Prop :=
  (s.halted = true ↔ s.haltCause ≠ .none) ∧ (s.halted = true → s.errPulse = false) ∧
  (s.errPulse = true → s.errMemRegion = true)

/-- The invariant of the machine. -/
abbrev State.Inv (s : State) : Prop :=
  s.zeroRegister ∧ s.instrMemWf ∧ s.dataMemWf ∧ s.pcEven ∧ s.statusWf

/-- The run has ended the way a program ends: FetchMiss or Sentinel (00_scope.md R12, 60_exceptions.md R182). Illegal is an
error of the program or the image and never a normal end (R182, U1). -/
def State.endedNormally (s : State) : Bool :=
  s.halted && (s.haltCause = .fetchMiss || s.haltCause = .sentinel)

/-- A normal end without a refused access on the way: what a correctness claim about a program asks for (U3). -/
def State.endedCleanly (s : State) : Bool := s.endedNormally && !s.errMemRegion

end Sys2Proof.Machine
end

