-- ==== Sys2Proof/Certificates/Slice0/Obligations.lean ====
section
/-! DEFINITION. The statements for the provers. Results are stated in exact arithmetic or bit by bit, not through the
model's own ALU functions; a frame says what an instruction leaves unchanged. -/

namespace Sys2Proof.Claims

open Sys2Proof Sys2Proof.Machine

/-! ## The vocabulary of the statements -/

/-- A word is the instruction of a row exactly when `w & mask = pat`, and its operands are the named fields (R80). -/
def SelectedBy (mask pat : Word) (mk : Word → Instr) : Prop := ∀ w : Word, w &&& mask = pat ↔ decode w = .ok (mk w)

/-- The operands of format R: `rd = IR[11:7]`, `rs1 = IR[19:15]`, `rs2 = IR[24:20]` (R71). -/
def operandsR (mk : RegIdx → RegIdx → RegIdx → Instr) (w : Word) : Instr :=
  mk (w.extractLsb 11 7) (w.extractLsb 19 15) (w.extractLsb 24 20)

/-- The operands of format I: `rd`, `rs1`, `imm[11:0] = IR[31:20]` (R72). -/
def operandsI (mk : RegIdx → RegIdx → BitVec 12 → Instr) (w : Word) : Instr :=
  mk (w.extractLsb 11 7) (w.extractLsb 19 15) (w.extractLsb 31 20)

/-- The operands of an immediate shift: `rd`, `rs1`, `shamt = IR[24:20]` (R72). -/
def operandsShift (mk : RegIdx → RegIdx → BitVec 5 → Instr) (w : Word) : Instr :=
  mk (w.extractLsb 11 7) (w.extractLsb 19 15) (w.extractLsb 24 20)

/-- The operands of format S: `rs2`, `rs1`, `imm = IR[31:25] ++ IR[11:7]` (R73). -/
def operandsS (mk : RegIdx → RegIdx → BitVec 12 → Instr) (w : Word) : Instr :=
  mk (w.extractLsb 24 20) (w.extractLsb 19 15) (w.extractLsb 31 25 ++ w.extractLsb 11 7)

/-- The operands of format SB: `rs1`, `rs2`, `imm = IR[31] ++ IR[7] ++ IR[30:25] ++ IR[11:8] ++ 0` (R74, R79). -/
def operandsSB (mk : RegIdx → RegIdx → BitVec 13 → Instr) (w : Word) : Instr :=
  mk (w.extractLsb 19 15) (w.extractLsb 24 20)
    (w.extractLsb 31 31 ++ w.extractLsb 7 7 ++ w.extractLsb 30 25 ++ w.extractLsb 11 8 ++ 0#1)

/-- The operands of format U: `rd`, `IR[31:12]` (R75). -/
def operandsU (mk : RegIdx → BitVec 20 → Instr) (w : Word) : Instr := mk (w.extractLsb 11 7) (w.extractLsb 31 12)

/-- Every byte of memory reads as before and the instruction memory is the same. -/
structure MemoryKept (s t : State) : Prop where
  instr : t.im = s.im
  bytes : ∀ a, t.byteAt a = s.byteAt a

/-- The host-visible status is unchanged (10_state.md R35 to R37), and so is the model's own draw counter. -/
structure StatusKept (s t : State) : Prop where
  halted : t.halted = s.halted
  haltCause : t.haltCause = s.haltCause
  errMemRegion : t.errMemRegion = s.errMemRegion
  errPulse : t.errPulse = s.errPulse
  retired : t.retired = s.retired
  draws : t.draws = s.draws

/-- Every register reads as before. -/
def RegistersKept (s t : State) : Prop := ∀ r, t.readReg r = s.readReg r

/-- `rd` takes `v` (a write to register 0 is discarded, R22), every other register is unchanged. -/
structure RegisterWritten (s t : State) (rd : RegIdx) (v : Word) : Prop where
  dest : t.readReg rd = if rd = 0 then 0 else v
  others : ∀ r, r ≠ rd → t.readReg r = s.readReg r

/-- The frame of an instruction that writes one register and the pc and nothing else. The sums that give a pc are of 32-bit words:
that they wrap at 2^32 is the spec's decision D2 (10_state.md R28). -/
structure WritesOnly (s t : State) (rd : RegIdx) (v pc : Word) : Prop where
  register : RegisterWritten s t rd v
  pc : t.pc = pc
  memory : MemoryKept s t
  status : StatusKept s t

/-- Nothing but the memories differs: every register, the pc and the status are kept. -/
structure OnlyMemoryChanges (s t : State) : Prop where
  registers : RegistersKept s t
  pc : t.pc = s.pc
  status : StatusKept s t

/-- A register-register instruction completes in every state, writes a `v` with `P x[rs1] x[rs2] v` and moves on by 4. -/
def ResultRR (mk : RegIdx → RegIdx → RegIdx → Instr) (P : Word → Word → Word → Prop) : Prop :=
  ∀ rd rs1 rs2 s, ∃ t v, exec (mk rd rs1 rs2) s = .next t ∧ P (s.readReg rs1) (s.readReg rs2) v ∧
    WritesOnly s t rd v (s.pc + 4)

/-- A register-immediate instruction completes in every state, writes a `v` with `P x[rs1] imm v` and moves on by 4. -/
def ResultRI {n : Nat} (mk : RegIdx → RegIdx → BitVec n → Instr) (P : Word → BitVec n → Word → Prop) : Prop :=
  ∀ rd rs1 imm s, ∃ t v, exec (mk rd rs1 imm) s = .next t ∧ P (s.readReg rs1) imm v ∧ WritesOnly s t rd v (s.pc + 4)

/-- A branch completes in every state: only the pc changes, to `pc + imm` from the branch's own address if the condition
holds and to `pc + 4` if not. -/
def BranchOn (mk : RegIdx → RegIdx → BitVec 13 → Instr) (cond : Word → Word → Prop) : Prop :=
  ∀ rs1 rs2 imm s, ∃ t, exec (mk rs1 rs2 imm) s = .next t ∧
    (cond (s.readReg rs1) (s.readReg rs2) → t.pc = s.pc + imm.signExtend 32) ∧
    (¬cond (s.readReg rs1) (s.readReg rs2) → t.pc = s.pc + 4) ∧
    RegistersKept s t ∧ MemoryKept s t ∧ StatusKept s t

/-- An access of `n` bytes at `a` that is performed: not in the instruction segment and not past 0xFFFFFFFF (20_memory.md R50, R51). -/
def Accessible (a n : Nat) : Prop := 0x10000000 ≤ a ∧ a + n ≤ 2 ^ 32

/-- A load of `n` bytes at an accessible address completes, writes a `v` with `P address v`, and changes nothing else. -/
def LoadResult (mk : RegIdx → RegIdx → BitVec 12 → Instr) (n : Nat) (P : State → Nat → Word → Prop) : Prop :=
  ∀ rd rs1 imm s, Accessible (s.effAddr rs1 imm).toNat n →
    ∃ t v, exec (mk rd rs1 imm) s = .next t ∧ P s (s.effAddr rs1 imm).toNat v ∧ WritesOnly s t rd v (s.pc + 4)

/-- What a refused access leaves: the error bit set and the pulse raised, every byte, the halt status and the count kept. -/
structure RefusalReported (s t : State) : Prop where
  pc : t.pc = s.pc + 4
  memory : MemoryKept s t
  errMemRegion : t.errMemRegion = true
  errPulse : t.errPulse = true
  halted : t.halted = s.halted
  haltCause : t.haltCause = s.haltCause
  retired : t.retired = s.retired

/-- A load of `n` bytes at any other address completes too: some value is written (which one is open, R154), the access is
reported. -/
def LoadRefused (mk : RegIdx → RegIdx → BitVec 12 → Instr) (n : Nat) : Prop :=
  ∀ rd rs1 imm s, ¬Accessible (s.effAddr rs1 imm).toNat n →
    ∃ t v, exec (mk rd rs1 imm) s = .next t ∧ RegisterWritten s t rd v ∧ RefusalReported s t

/-- A store of `n` bytes at an accessible address completes: byte `k` of the access takes bits `8k+7..8k` of `x[rs2]`, every
other byte, every register and the status are unchanged. -/
def StoreResult (mk : RegIdx → RegIdx → BitVec 12 → Instr) (n : Nat) : Prop :=
  ∀ rs2 rs1 imm s, Accessible (s.effAddr rs1 imm).toNat n →
    ∃ t, exec (mk rs2 rs1 imm) s = .next t ∧
      (∀ k, k < n → (t.byteAt ((s.effAddr rs1 imm).toNat + k)).toNat = (s.readReg rs2).toNat / 256 ^ k % 256) ∧
      (∀ a, a < (s.effAddr rs1 imm).toNat ∨ (s.effAddr rs1 imm).toNat + n ≤ a → t.byteAt a = s.byteAt a) ∧
      t.im = s.im ∧ t.pc = s.pc + 4 ∧ RegistersKept s t ∧ StatusKept s t

/-- A store of `n` bytes at any other address completes, writes nothing and is reported. -/
def StoreRefused (mk : RegIdx → RegIdx → BitVec 12 → Instr) (n : Nat) : Prop :=
  ∀ rs2 rs1 imm s, ¬Accessible (s.effAddr rs1 imm).toNat n →
    ∃ t, exec (mk rs2 rs1 imm) s = .next t ∧ RegistersKept s t ∧ t.draws = s.draws ∧ RefusalReported s t

/-- The destination register of an instruction, if its opcode is in the writeback set (10_state.md R24). -/
def destOf : Instr → Option RegIdx
  | .add rd _ _ | .sub rd _ _ | .xor rd _ _ | .or rd _ _ | .and rd _ _ | .sll rd _ _ | .slt rd _ _ | .srl rd _ _
  | .sra rd _ _ | .mul rd _ _ | .div rd _ _ | .rem rd _ _ => some rd
  | .addi rd _ _ | .andi rd _ _ | .ori rd _ _ | .xori rd _ _ | .slti rd _ _ | .slli rd _ _ | .srli rd _ _
  | .srai rd _ _ | .lb rd _ _ | .lh rd _ _ | .lw rd _ _ | .jal rd _ | .jalr rd _ _ _ | .lui rd _ | .auipc rd _ => some rd
  | .sb .. | .sh .. | .sw .. | .beq .. | .bne .. | .blt .. | .bge .. => none

/-- The bytes, base register and displacement of a store. -/
def storeOf : Instr → Option (Nat × RegIdx × BitVec 12)
  | .sb _ rs1 imm => some (1, rs1, imm)
  | .sh _ rs1 imm => some (2, rs1, imm)
  | .sw _ rs1 imm => some (4, rs1, imm)
  | _ => none

/-- The bytes, base register and displacement of a load or a store. -/
def accessOf : Instr → Option (Nat × RegIdx × BitVec 12)
  | .lb _ rs1 imm => some (1, rs1, imm)
  | .lh _ rs1 imm => some (2, rs1, imm)
  | .lw _ rs1 imm => some (4, rs1, imm)
  | i => storeOf i

/-- The instruction makes an access that is refused (60_exceptions.md R183). -/
def Refuses (i : Instr) (s : State) : Prop :=
  ∃ n rs1 imm, accessOf i = some (n, rs1, imm) ∧ ¬Accessible (s.effAddr rs1 imm).toNat n

/-- Two states that agree on everything a program computes with. -/
structure SameProgramState (s t : State) : Prop where
  x : t.x = s.x
  pc : t.pc = s.pc
  im : t.im = s.im
  dm : t.dm = s.dm
  sm : t.sm = s.sm
  draws : t.draws = s.draws

/-- A cycle that halts: `halted` and the cause are set, nothing else changes but the pulse, which is down (log 8). -/
def HaltedBy (s : State) (cause : HaltCause) : State :=
  { s with halted := true, haltCause := cause, errPulse := false }

/-- The registers, pc and status after reset (10_state.md R38). -/
structure AfterReset (s : State) : Prop where
  registers : ∀ r, s.readReg r = if r = 2 then 0x7FFFFFFC else 0
  pc : s.pc = 0
  halted : s.halted = false
  haltCause : s.haltCause = .none
  errMemRegion : s.errMemRegion = false
  errPulse : s.errPulse = false
  retired : s.retired = 0

/-- Opcode, funct3 and funct7 of a word (R78). -/
def opcodeAt (w : Word) : Nat := (w.extractLsb 6 0).toNat
def funct3At (w : Word) : Nat := (w.extractLsb 14 12).toNat
def funct7At (w : Word) : Nat := (w.extractLsb 31 25).toNat

/-- The pairs (funct3, funct7) of opcode 0x33 (30_encoding.md R81). -/
def opPairs : List (Nat × Nat) :=
  [(0, 0), (0, 0x20), (0, 1), (4, 0), (4, 1), (6, 0), (6, 1), (7, 0), (1, 0), (2, 0), (5, 0), (5, 0x20)]

/-- The six bullets of R85. -/
def IllegalWord (w : Word) : Prop :=
  opcodeAt w ∉ [0x33, 0x13, 0x03, 0x23, 0x63, 0x6F, 0x67, 0x37, 0x17] ∨
  (opcodeAt w = 0x33 ∧ (funct3At w, funct7At w) ∉ opPairs) ∨
  (opcodeAt w = 0x13 ∧ (funct3At w = 3 ∨ (funct3At w = 5 ∧ funct7At w ∉ [0x00, 0x20]))) ∨
  (opcodeAt w = 0x03 ∧ funct3At w ∉ [0, 1, 2]) ∨
  (opcodeAt w = 0x23 ∧ funct3At w ∉ [0, 1, 2]) ∨
  (opcodeAt w = 0x63 ∧ funct3At w ∉ [0, 1, 4, 5])

end Sys2Proof.Claims

open Sys2Proof Sys2Proof.Machine Sys2Proof.Claims

/-! ## Encoding and decoding -/

/-- 30_encoding.md R88, the round-trip law: decoding the encoding of a well-formed instruction gives it back, with every
operand at every value. -/
def Obligations.DecodeOfEncode : Prop := ∀ i : Instr, i.wf = true → decode (encode i) = .ok i

/-- The other direction: a word that decodes is the encoding of the instruction it decodes to, which is well formed; so no
bit of a word is dropped (the ignored bits of SLLI and JALR are operands, log 11). -/
def Obligations.EncodeOfDecode : Prop := ∀ (w : Word) (i : Instr), decode w = .ok i → encode i = w ∧ i.wf = true

/-- R80: the decoder and the 34-row opcode map agree on every word, and no word matches two rows. -/
def Obligations.DecodeAgreesWithOpcodeMap : Prop :=
  (∀ w i, decode w = .ok i → ∃ r ∈ opcodeRows, r.mnemonic = i.mnemonic ∧ w &&& r.mask = r.pat) ∧
  (∀ w, ∀ r ∈ opcodeRows, w &&& r.mask = r.pat → ∃ i, decode w = .ok i ∧ i.mnemonic = r.mnemonic) ∧
  (∀ w, ∀ r ∈ opcodeRows, ∀ q ∈ opcodeRows, w &&& r.mask = r.pat → w &&& q.mask = q.pat → r = q)

/-- R85: the words the decoder rejects are exactly those of the six bullets. What happens to them is the spec's decision
(D7, D8), stated in IllegalWordHalts. -/
def Obligations.RejectedWordsAreTheListed : Prop := ∀ w, (∃ r, decode w = .error r) ↔ IllegalWord w

/-- R71 to R76: every field of every format stands at its bits; the shift amount and the `top` of an I word; bit 0 of the branch
and JAL immediates is zero. -/
def Obligations.FormatsPlaceTheirFields : Prop :=
  (∀ f7 rs2 rs1 f3 rd op, let w := packR f7 rs2 rs1 f3 rd op
    w.extractLsb 6 0 = op ∧ w.extractLsb 11 7 = rd ∧ w.extractLsb 14 12 = f3 ∧ w.extractLsb 19 15 = rs1 ∧
    w.extractLsb 24 20 = rs2 ∧ w.extractLsb 31 25 = f7) ∧
  (∀ imm rs1 f3 rd op, let w := packI imm rs1 f3 rd op
    w.extractLsb 6 0 = op ∧ w.extractLsb 11 7 = rd ∧ w.extractLsb 14 12 = f3 ∧ w.extractLsb 19 15 = rs1 ∧
    w.extractLsb 31 20 = imm ∧ w.extractLsb 24 20 = imm.extractLsb 4 0 ∧ w.extractLsb 31 25 = imm.extractLsb 11 5) ∧
  (∀ imm rs2 rs1 f3 op, let w := packS imm rs2 rs1 f3 op
    w.extractLsb 6 0 = op ∧ w.extractLsb 11 7 = imm.extractLsb 4 0 ∧ w.extractLsb 14 12 = f3 ∧
    w.extractLsb 19 15 = rs1 ∧ w.extractLsb 24 20 = rs2 ∧ w.extractLsb 31 25 = imm.extractLsb 11 5) ∧
  (∀ imm rs2 rs1 f3 op, let w := packSB imm rs2 rs1 f3 op
    w.extractLsb 6 0 = op ∧ w.extractLsb 7 7 = imm.extractLsb 11 11 ∧ w.extractLsb 11 8 = imm.extractLsb 4 1 ∧
    w.extractLsb 14 12 = f3 ∧ w.extractLsb 19 15 = rs1 ∧ w.extractLsb 24 20 = rs2 ∧
    w.extractLsb 30 25 = imm.extractLsb 10 5 ∧ w.extractLsb 31 31 = imm.extractLsb 12 12 ∧
    (immOf .SB w).getLsbD 0 = false) ∧
  (∀ imm20 rd op, let w := packU imm20 rd op
    w.extractLsb 6 0 = op ∧ w.extractLsb 11 7 = rd ∧ w.extractLsb 31 12 = imm20) ∧
  (∀ imm rd op, let w := packUJ imm rd op
    w.extractLsb 6 0 = op ∧ w.extractLsb 11 7 = rd ∧ w.extractLsb 19 12 = imm.extractLsb 19 12 ∧
    w.extractLsb 20 20 = imm.extractLsb 11 11 ∧ w.extractLsb 30 21 = imm.extractLsb 10 1 ∧
    w.extractLsb 31 31 = imm.extractLsb 20 20 ∧ (immOf .UJ w).getLsbD 0 = false)

/-- R79: the 32-bit immediate of each format, as an integer, with its range and its multiple; and the U immediate is the same
whether the 20-bit field is sign-extended before the shift or not. -/
def Obligations.ImmediateOfEachFormat : Prop :=
  (∀ w, (immOf .I w).toInt = (w.extractLsb 31 20).toInt) ∧
  (∀ w, (immOf .S w).toInt = (w.extractLsb 31 25 ++ w.extractLsb 11 7 : BitVec 12).toInt) ∧
  (∀ w, (immOf .SB w).toInt =
    2 * (w.extractLsb 31 31 ++ w.extractLsb 7 7 ++ w.extractLsb 30 25 ++ w.extractLsb 11 8 : BitVec 12).toInt) ∧
  (∀ w, (immOf .U w).toNat = (w.extractLsb 31 12).toNat * 4096) ∧
  (∀ w, (immOf .UJ w).toInt =
    2 * (w.extractLsb 31 31 ++ w.extractLsb 19 12 ++ w.extractLsb 20 20 ++ w.extractLsb 30 21 : BitVec 20).toInt) ∧
  (∀ w, -2048 ≤ (immOf .I w).toInt ∧ (immOf .I w).toInt ≤ 2047 ∧
    -2048 ≤ (immOf .S w).toInt ∧ (immOf .S w).toInt ≤ 2047 ∧
    -4096 ≤ (immOf .SB w).toInt ∧ (immOf .SB w).toInt ≤ 4094 ∧
    -1048576 ≤ (immOf .UJ w).toInt ∧ (immOf .UJ w).toInt ≤ 1048574) ∧
  (∀ f : BitVec 20, (f.signExtend 32) <<< 12 = f ++ 0#12)

/-- R78: the decoder's record holds the fields of the word, with `rs2` and `funct7` zeroed for the opcodes 0x13, 0x03, 0x67
and the immediate of the opcode's format (R77). -/
def Obligations.DecodedRecordOfWord : Prop := ∀ w : Word,
  (fieldsOf w).opcode = w.extractLsb 6 0 ∧ (fieldsOf w).rd = w.extractLsb 11 7 ∧
  (fieldsOf w).funct3 = w.extractLsb 14 12 ∧ (fieldsOf w).rs1 = w.extractLsb 19 15 ∧
  (opcodeAt w ∈ [0x13, 0x03, 0x67] → (fieldsOf w).rs2 = 0 ∧ (fieldsOf w).funct7 = 0 ∧ (fieldsOf w).imm = immOf .I w) ∧
  (opcodeAt w ∉ [0x13, 0x03, 0x67] → (fieldsOf w).rs2 = w.extractLsb 24 20 ∧ (fieldsOf w).funct7 = w.extractLsb 31 25) ∧
  (opcodeAt w = 0x23 → (fieldsOf w).imm = immOf .S w) ∧ (opcodeAt w = 0x63 → (fieldsOf w).imm = immOf .SB w) ∧
  (opcodeAt w ∈ [0x37, 0x17] → (fieldsOf w).imm = immOf .U w) ∧ (opcodeAt w = 0x6F → (fieldsOf w).imm = immOf .UJ w)

/-- Words written out by the spec decode to the instructions it says they are (examples of R121, R141, R153, R158, R162, R171,
R172, R176). -/
def Obligations.ExampleWordsDecode : Prop :=
  decode 0x002081B3 = .ok (.add 3 1 2) ∧ decode 0xFFF08093 = .ok (.addi 1 1 (-1)) ∧ decode 0x0000A103 = .ok (.lw 2 1 0) ∧
  decode 0x00532223 = .ok (.sw 5 6 4) ∧ decode 0xFE009EE3 = .ok (.bne 1 0 (-4)) ∧ decode 0x800000EF = .ok (.jal 1 (-1048576)) ∧
  decode 0x004280E7 = .ok (.jalr 1 5 0 4) ∧ decode 0x123450B7 = .ok (.lui 1 0x12345)

/-! ## The results and frames of the instructions -/

/-- ADD, SUB (R121, R122): selection, the sum and the difference modulo 2^32, the frame. That they wrap is the spec's decision D2. -/
def Obligations.AddSubResult : Prop :=
  SelectedBy 0xFE00707F 0x00000033 (operandsR .add) ∧ SelectedBy 0xFE00707F 0x40000033 (operandsR .sub) ∧
  ResultRR .add (fun a b v => v.toNat = (a.toNat + b.toNat) % 2 ^ 32) ∧
  ResultRR .sub (fun a b v => (v.toNat : Int) = ((a.toNat : Int) - b.toNat) % 2 ^ 32)

/-- XOR, OR, AND (R123, R124, R125): selection, every bit of the result, the frame. -/
def Obligations.XorOrAndResult : Prop :=
  SelectedBy 0xFE00707F 0x00004033 (operandsR .xor) ∧ SelectedBy 0xFE00707F 0x00006033 (operandsR .or) ∧
  SelectedBy 0xFE00707F 0x00007033 (operandsR .and) ∧
  ResultRR .xor (fun a b v => ∀ k, v.getLsbD k = (a.getLsbD k != b.getLsbD k)) ∧
  ResultRR .or (fun a b v => ∀ k, v.getLsbD k = (a.getLsbD k || b.getLsbD k)) ∧
  ResultRR .and (fun a b v => ∀ k, v.getLsbD k = (a.getLsbD k && b.getLsbD k))

/-- SLL, SRL, SRA (R126, R128, R129): selection, every bit of the result with the amount `x[rs2] mod 32`, the frame. -/
def Obligations.RegisterShiftResult : Prop :=
  SelectedBy 0xFE00707F 0x00001033 (operandsR .sll) ∧ SelectedBy 0xFE00707F 0x00005033 (operandsR .srl) ∧
  SelectedBy 0xFE00707F 0x40005033 (operandsR .sra) ∧
  ResultRR .sll (fun a b v => v.toNat = a.toNat * 2 ^ (b.toNat % 32) % 2 ^ 32) ∧
  ResultRR .srl (fun a b v => v.toNat = a.toNat / 2 ^ (b.toNat % 32)) ∧
  ResultRR .sra (fun a b v => ∀ k, k < 32 →
    v.getLsbD k = if k + b.toNat % 32 < 32 then a.getLsbD (k + b.toNat % 32) else a.getLsbD 31)

/-- SLT, SLTI (R127, R145): selection, 1 or 0 by the signed comparison, the frame. That it is signed is the spec's decision D6. -/
def Obligations.SetLessThanResult : Prop :=
  SelectedBy 0xFE00707F 0x00002033 (operandsR .slt) ∧ SelectedBy 0x0000707F 0x00002013 (operandsI .slti) ∧
  ResultRR .slt (fun a b v => (a.toInt < b.toInt → v = 1) ∧ (b.toInt ≤ a.toInt → v = 0)) ∧
  ResultRI .slti (fun a imm v => (a.toInt < imm.toInt → v = 1) ∧ (imm.toInt ≤ a.toInt → v = 0))

/-- MUL (R131): selection, the low 32 bits of the product, read signed or unsigned, the frame. The width is the spec's decision D3. -/
def Obligations.MulResult : Prop :=
  SelectedBy 0xFE00707F 0x02000033 (operandsR .mul) ∧
  ResultRR .mul (fun a b v => v.toNat = a.toNat * b.toNat % 2 ^ 32 ∧ (v.toNat : Int) = a.toInt * b.toInt % 2 ^ 32)

/-- DIV, REM (R132, R133): selection, 0 for a zero divisor, the open pair for -2^31 by -1 (whatever it is), else the quotient
rounded toward zero and its remainder; the frame. Rounding is the spec's decision D4, the open pair D5 (log 6). -/
def Obligations.DivRemResult : Prop :=
  SelectedBy 0xFE00707F 0x02004033 (operandsR .div) ∧ SelectedBy 0xFE00707F 0x02006033 (operandsR .rem) ∧
  ResultRR .div (fun a b v => (b.toInt = 0 → v = 0) ∧
    (a.toInt = -2 ^ 31 ∧ b.toInt = -1 → v = Config.divOverflow.1) ∧
    (b.toInt ≠ 0 ∧ ¬(a.toInt = -2 ^ 31 ∧ b.toInt = -1) → v.toInt = a.toInt.tdiv b.toInt)) ∧
  ResultRR .rem (fun a b v => (b.toInt = 0 → v = 0) ∧
    (a.toInt = -2 ^ 31 ∧ b.toInt = -1 → v = Config.divOverflow.2) ∧
    (b.toInt ≠ 0 ∧ ¬(a.toInt = -2 ^ 31 ∧ b.toInt = -1) → v.toInt = a.toInt - b.toInt * a.toInt.tdiv b.toInt))

/-- 60_exceptions.md R184, DivideByZero in full: the result is 0, the instruction completes normally, nothing is recorded. -/
def Obligations.DivideByZeroGivesZero : Prop :=
  ∀ rd rs1 rs2 s, s.readReg rs2 = 0 →
    (∃ t, exec (.div rd rs1 rs2) s = .next t ∧ WritesOnly s t rd 0 (s.pc + 4)) ∧
    (∃ t, exec (.rem rd rs1 rs2) s = .next t ∧ WritesOnly s t rd 0 (s.pc + 4))

/-- The law of R133 for a divisor that is not 0 and no overflow: `a = b * DIV(a, b) + REM(a, b)`, the remainder is smaller than
the divisor and has the dividend's sign (the spec's decision D4). A destination of register 0 discards the value (R22). -/
def Obligations.QuotientAndRemainderLaw : Prop :=
  ∀ rs1 rs2 s, (s.readReg rs2).toInt ≠ 0 → ¬((s.readReg rs1).toInt = -2 ^ 31 ∧ (s.readReg rs2).toInt = -1) →
    ∃ q r : Word,
      (∀ rd, ∃ t, exec (.div rd rs1 rs2) s = .next t ∧ t.readReg rd = if rd = 0 then 0 else q) ∧
      (∀ rd, ∃ t, exec (.rem rd rs1 rs2) s = .next t ∧ t.readReg rd = if rd = 0 then 0 else r) ∧
      (s.readReg rs1).toInt = (s.readReg rs2).toInt * q.toInt + r.toInt ∧
      r.toInt.natAbs < (s.readReg rs2).toInt.natAbs ∧
      (0 < r.toInt → 0 < (s.readReg rs1).toInt) ∧ (r.toInt < 0 → (s.readReg rs1).toInt < 0)

/-- ADDI (R141): selection, the sum with the sign-extended immediate modulo 2^32, the frame. That it wraps is the spec's decision D2. -/
def Obligations.AddiResult : Prop :=
  SelectedBy 0x0000707F 0x00000013 (operandsI .addi) ∧
  ResultRI .addi (fun a imm v => (v.toNat : Int) = ((a.toNat : Int) + imm.toInt) % 2 ^ 32)

/-- ANDI, ORI, XORI (R142, R143, R144): selection, every bit of the result; bits 31..11 of the operand are `imm[11]`; the frame. -/
def Obligations.LogicalImmediateResult : Prop :=
  SelectedBy 0x0000707F 0x00007013 (operandsI .andi) ∧ SelectedBy 0x0000707F 0x00006013 (operandsI .ori) ∧
  SelectedBy 0x0000707F 0x00004013 (operandsI .xori) ∧
  ResultRI .andi (fun a imm v => ∀ k, k < 32 → v.getLsbD k = (a.getLsbD k && imm.getLsbD (min k 11))) ∧
  ResultRI .ori (fun a imm v => ∀ k, k < 32 → v.getLsbD k = (a.getLsbD k || imm.getLsbD (min k 11))) ∧
  ResultRI .xori (fun a imm v => ∀ k, k < 32 → v.getLsbD k = (a.getLsbD k != imm.getLsbD (min k 11)))

/-- SLLI, SRLI, SRAI (R146, R147, R148): selection (SLLI for every `top`), every bit of the result, the frame. SLLI uses
`imm[4:0]` only: two immediates with the same low five bits do the same; that the ignored top stays an operand of `slli` is log 11.
That words with another top under funct3 = 5 are neither SRLI nor SRAI is the spec's decision D8. -/
def Obligations.ImmediateShiftResult : Prop :=
  SelectedBy 0x0000707F 0x00001013 (operandsI .slli) ∧ SelectedBy 0xFE00707F 0x00005013 (operandsShift .srli) ∧
  SelectedBy 0xFE00707F 0x40005013 (operandsShift .srai) ∧
  ResultRI .slli (fun a imm v => v.toNat = a.toNat * 2 ^ (imm.toNat % 32) % 2 ^ 32) ∧
  ResultRI .srli (fun a shamt v => v.toNat = a.toNat / 2 ^ shamt.toNat) ∧
  ResultRI .srai (fun a shamt v => ∀ k, k < 32 →
    v.getLsbD k = if k + shamt.toNat < 32 then a.getLsbD (k + shamt.toNat) else a.getLsbD 31)

/-- LB, LH, LW at an accessible address (R151, R152, R153): selection, the little-endian value sign-extended from the top byte
read, the frame. Accesses of every alignment and across the segments are performed (the spec's decisions D11, D12). -/
def Obligations.LoadsReadLittleEndian : Prop :=
  SelectedBy 0x0000707F 0x00000003 (operandsI .lb) ∧ SelectedBy 0x0000707F 0x00001003 (operandsI .lh) ∧
  SelectedBy 0x0000707F 0x00002003 (operandsI .lw) ∧
  LoadResult .lb 1 (fun s a v => v.toInt = (s.byteAt a).toInt) ∧
  LoadResult .lh 2 (fun s a v => v.toInt = (s.byteAt (a + 1)).toInt * 256 + (s.byteAt a).toNat) ∧
  LoadResult .lw 4 (fun s a v => v.toNat = (s.byteAt a).toNat + 256 * (s.byteAt (a + 1)).toNat +
    65536 * (s.byteAt (a + 2)).toNat + 16777216 * (s.byteAt (a + 3)).toNat)

/-- LB, LH, LW at a refused address (R154, 20_memory.md R52): they complete, some value is written to `rd` (open: log 3), nothing
is read or written in memory, the error bit and the pulse are set. The past-the-end refusal is the spec's decision D11, the
error bit D24. -/
def Obligations.RefusedLoadsComplete : Prop := LoadRefused .lb 1 ∧ LoadRefused .lh 2 ∧ LoadRefused .lw 4

/-- SB, SH, SW at an accessible address (R156, R157, R158): selection, the bytes stored at the effective address, every other
byte kept, no register written, the frame. -/
def Obligations.StoresWriteTheirBytes : Prop :=
  SelectedBy 0x0000707F 0x00000023 (operandsS .sb) ∧ SelectedBy 0x0000707F 0x00001023 (operandsS .sh) ∧
  SelectedBy 0x0000707F 0x00002023 (operandsS .sw) ∧
  StoreResult .sb 1 ∧ StoreResult .sh 2 ∧ StoreResult .sw 4

/-- SB, SH, SW at a refused address (R155, 20_memory.md R52): they complete and write nothing; the error bit and the pulse are
set. The past-the-end refusal is the spec's decision D11, the error bit D24. -/
def Obligations.RefusedStoresWriteNothing : Prop := StoreRefused .sb 1 ∧ StoreRefused .sh 2 ∧ StoreRefused .sw 4

/-- The sums that make an address wrap modulo 2^32: effective addresses, branch and JAL targets, `pc + 4` (10_state.md R28;
the spec's decision D2). -/
def Obligations.AddressSumsWrap : Prop := ∀ (s : State),
  (∀ rs1 imm, ((s.effAddr rs1 imm).toNat : Int) = (((s.readReg rs1).toNat : Int) + imm.toInt) % 2 ^ 32) ∧
  (∀ imm, ((s.branchTarget imm).toNat : Int) = ((s.pc.toNat : Int) + imm.toInt) % 2 ^ 32) ∧
  (∀ imm, ((s.jalTarget imm).toNat : Int) = ((s.pc.toNat : Int) + imm.toInt) % 2 ^ 32) ∧
  s.pcPlus4.toNat = (s.pc.toNat + 4) % 2 ^ 32

/-- BEQ, BNE, BLT, BGE (46_branch.md R161 to R164): selection, the condition, the target from the branch's own address, the frame. -/
def Obligations.BranchesCompareAndMove : Prop :=
  SelectedBy 0x0000707F 0x00000063 (operandsSB .beq) ∧ SelectedBy 0x0000707F 0x00001063 (operandsSB .bne) ∧
  SelectedBy 0x0000707F 0x00004063 (operandsSB .blt) ∧ SelectedBy 0x0000707F 0x00005063 (operandsSB .bge) ∧
  BranchOn .beq (fun a b => ∀ k, a.getLsbD k = b.getLsbD k) ∧ BranchOn .bne (fun a b => ∃ k, a.getLsbD k ≠ b.getLsbD k) ∧
  BranchOn .blt (fun a b => a.toInt < b.toInt) ∧ BranchOn .bge (fun a b => b.toInt ≤ a.toInt)

/-- JAL (47_jump.md R171): selection with the scattered immediate, the link `pc + 4`, the target from its own address, the frame. -/
def Obligations.JalLinksAndJumps : Prop :=
  SelectedBy 0x0000007F 0x0000006F (fun w => .jal (w.extractLsb 11 7)
    (w.extractLsb 31 31 ++ w.extractLsb 19 12 ++ w.extractLsb 20 20 ++ w.extractLsb 30 21 ++ 0#1)) ∧
  ∀ rd imm s, ∃ t, exec (.jal rd imm) s = .next t ∧ WritesOnly s t rd (s.pc + 4) (s.pc + imm.signExtend 32)

/-- JALR (R172): selection for every funct3 (R83; executing it for funct3 other than 0 is the spec's decision D9, log 11), the
link, the target `(x[rs1] + imm)` with bit 0 cleared and read before the link is written, the frame. -/
def Obligations.JalrLinksAndJumps : Prop :=
  SelectedBy 0x0000007F 0x00000067 (fun w =>
    .jalr (w.extractLsb 11 7) (w.extractLsb 19 15) (w.extractLsb 14 12) (w.extractLsb 31 20)) ∧
  ∀ rd rs1 f3 imm s, ∃ t target, exec (.jalr rd rs1 f3 imm) s = .next t ∧
    (target.toNat : Int) = (((s.readReg rs1).toNat : Int) + imm.toInt) % 2 ^ 32 / 2 * 2 ∧
    WritesOnly s t rd (s.pc + 4) target

/-- LUI (48_upper.md R176): selection, the field in bits 31..12 over twelve zero bits, the frame. -/
def Obligations.LuiResult : Prop :=
  SelectedBy 0x0000007F 0x00000037 (operandsU .lui) ∧
  ∀ rd imm20 s, ∃ t v, exec (.lui rd imm20) s = .next t ∧ v.toNat = imm20.toNat * 4096 ∧ WritesOnly s t rd v (s.pc + 4)

/-- AUIPC (R177): selection, the sum of its own address and the shifted field modulo 2^32 (the wrap is the spec's decision D2), the
frame. -/
def Obligations.AuipcResult : Prop :=
  SelectedBy 0x0000007F 0x00000017 (operandsU .auipc) ∧
  ∀ rd imm20 s, ∃ t v, exec (.auipc rd imm20) s = .next t ∧ v.toNat = (s.pc.toNat + imm20.toNat * 4096) % 2 ^ 32 ∧
    WritesOnly s t rd v (s.pc + 4)

/-! ## Whole-machine rules over the instructions -/

/-- 40_cycle.md R117, the source's five invariants: register 0 is zero; an opcode outside the writeback set leaves every
register; taken and untaken branches (that `pc + imm` and `pc + 4` wrap is the spec's decision D2, log 17); JALR clears the
least significant bit of the target; a byte written is readable and one never written reads zero (R44; below 0x10000000 the
functions are only made total, log 13): a store writes its bytes and no other, a refused store and every other instruction
write none, LB reads the byte (accesses of every alignment and across the segments are the spec's decisions D11, D12, logs 9
and 10). -/
def Obligations.InvariantsOfTheSource : Prop :=
  (∀ i s t, exec i s = .next t → t.readReg 0 = 0 ∧ (s.x[0] = 0 → t.x[0] = 0)) ∧
  (∀ i s t, exec i s = .next t →
    opcodeAt (encode i) ∉ [0x33, 0x13, 0x17, 0x37, 0x03, 0x6F, 0x67] → RegistersKept s t) ∧
  (BranchOn .beq (fun a b => a = b) ∧ BranchOn .bne (fun a b => a ≠ b) ∧
    BranchOn .blt (fun a b => a.toInt < b.toInt) ∧ BranchOn .bge (fun a b => b.toInt ≤ a.toInt)) ∧
  (∀ rd rs1 f3 imm s t, exec (.jalr rd rs1 f3 imm) s = .next t → t.pc.getLsbD 0 = false) ∧
  (∀ (s : State) a b, (s.writeByte a b).byteAt a = b) ∧ (∀ a, State.reset.byteAt a = 0) ∧
  (∀ i s t a, exec i s = .next t → storeOf i = none → t.byteAt a = s.byteAt a) ∧
  (∀ i s t a, exec i s = .next t →
    (∀ n rs1 imm, storeOf i = some (n, rs1, imm) →
      a < (s.effAddr rs1 imm).toNat ∨ (s.effAddr rs1 imm).toNat + n ≤ a) → t.byteAt a = s.byteAt a) ∧
  (StoreResult .sb 1 ∧ StoreResult .sh 2 ∧ StoreResult .sw 4) ∧
  (StoreRefused .sb 1 ∧ StoreRefused .sh 2 ∧ StoreRefused .sw 4) ∧
  LoadResult .lb 1 (fun s a v => v.toInt = (s.byteAt a).toInt)

/-- 10_state.md R21, R22: register 0 reads 0; an instruction whose `rd` is 0 changes no register, and its other effects still
happen: a refused load is reported, a jump moves the pc. -/
def Obligations.RegisterZeroDiscardsWrites : Prop :=
  (∀ s : State, s.readReg 0 = 0) ∧ (∀ (s : State) v, s.writeReg 0 v = s) ∧
  (∀ i s t, destOf i = some 0 → exec i s = .next t → RegistersKept s t) ∧
  (∀ rs1 imm s, ∀ i ∈ [Instr.lb 0 rs1 imm, .lh 0 rs1 imm, .lw 0 rs1 imm], Refuses i s →
    ∃ t, exec i s = .next t ∧ t.errMemRegion = true ∧ t.pc = s.pc + 4) ∧
  (∀ imm s, ∃ t, exec (.jal 0 imm) s = .next t ∧ t.pc = s.pc + imm.signExtend 32) ∧
  (∀ rs1 f3 imm s, ∃ t, exec (.jalr 0 rs1 f3 imm) s = .next t ∧ t.pc = s.jalrTarget rs1 imm)

/-- 10_state.md R24: no instruction changes a register other than its `rd`, and stores and branches change none. -/
def Obligations.OnlyTheDestinationRegisterChanges : Prop :=
  ∀ i s t, exec i s = .next t → ∀ r, destOf i ≠ some r → t.readReg r = s.readReg r

/-- No instruction changes a byte outside the bytes it stores to, at the effective address its meaning computes. -/
def Obligations.OnlyStoredBytesChange : Prop :=
  ∀ i s t, exec i s = .next t → ∀ a,
    (∀ n rs1 imm, storeOf i = some (n, rs1, imm) →
      a < (s.effAddr rs1 imm).toNat ∨ (s.effAddr rs1 imm).toNat + n ≤ a) →
    t.byteAt a = s.byteAt a

/-- 10_state.md R36, 20_memory.md R52: the error bit is set and the pulse raised by exactly the instructions whose access is
refused, and by nothing else. The two outputs are the spec's decision D24. -/
def Obligations.ErrorReportedExactlyOnRefusal : Prop :=
  ∀ i s t, exec i s = .next t →
    (t.errMemRegion = true ↔ s.errMemRegion = true ∨ Refuses i s) ∧ (t.errPulse = true ↔ s.errPulse = true ∨ Refuses i s)

/-- 10_state.md R35 to R37: no instruction reads the status. Two states that are not halted and agree on what a program computes
with (registers, pc, memories, and the model's draw counter) still agree after a step, and halt together, whatever their
error bits, pulses and counts. The status fields are the spec's decisions D14, D19, D24. -/
def Obligations.StatusIsNeverRead : Prop :=
  ∀ s s' t t', SameProgramState s s' → s.halted = false → s'.halted = false →
    step s = .next t → step s' = .next t' → SameProgramState t t' ∧ t.halted = t'.halted

/-! ## Memory -/

/-- 20_memory.md R44: each byte keeps the last value written to it, and a byte never written reads zero. The addresses of DM and
SM are those from 0x10000000 on; below them the two functions are only made total (log 13). -/
def Obligations.BytesKeepTheLastWrite : Prop :=
  (∀ (s : State) a b a', (s.writeByte a b).byteAt a' = if a' = a then b else s.byteAt a') ∧
  (∀ (s : State) a, (∀ c ∈ s.dm ++ s.sm, c.1 ≠ a) → s.byteAt a = 0) ∧ (∀ a, State.reset.byteAt a = 0)

/-- R48: the byte at the lowest address of a multi-byte value is its least significant byte, reading and writing. That the law
holds at every alignment is the spec's decision D12 (20_memory.md R54, log 10), across 0x50000000 its decision D11 (R53, log 9). -/
def Obligations.MultiByteValuesAreLittleEndian : Prop :=
  (∀ (s : State) (addr : Word), Accessible addr.toNat 4 →
    s.memRead addr .word = some (s.byteAt (addr.toNat + 3) ++ s.byteAt (addr.toNat + 2) ++ s.byteAt (addr.toNat + 1) ++
      s.byteAt addr.toNat : BitVec 32)) ∧
  (∀ (s : State) (addr : Word), Accessible addr.toNat 2 →
    s.memRead addr .half = some (s.byteAt (addr.toNat + 1) ++ s.byteAt addr.toNat : BitVec 16)) ∧
  (∀ (s : State) (addr v : Word) (w : Width), Accessible addr.toNat w.bytes →
    ∀ k, k < w.bytes → (s.memWrite addr w v).byteAt (addr.toNat + k) = v.extractLsb' (8 * k) 8)

/-- R41, R53: each byte of an access that is performed is routed by its own address, to DM from 0x10000000 to below 0x50000000 and
to SM from there to 0xFFFFFFFF; a write reaches that map only. Routing by byte and not by access is the spec's decision D11
(log 9). An access whose address lies below 0x10000000, in the instruction segment, reads and writes no byte (R50, R51). -/
def Obligations.BytesAreRoutedByAddress : Prop :=
  (∀ (s : State) a b,
    (0x10000000 ≤ a → a < 0x50000000 → s.byteAt a = s.dm.read a ∧ (s.writeByte a b).sm = s.sm) ∧
    (0x50000000 ≤ a → a < 2 ^ 32 → s.byteAt a = s.sm.read a ∧ (s.writeByte a b).dm = s.dm)) ∧
  (∀ (s : State) (addr v : Word) (w : Width), addr.toNat < 0x10000000 →
    s.memRead addr w = none ∧ (s.memWrite addr w v).dm = s.dm ∧ (s.memWrite addr w v).sm = s.sm)

/-- R61: a load returns what the last store to its bytes wrote: SW then LW, SH then LH, SB then LB at the same accessible
address, through any base registers, at every alignment and across the segments (the spec's decisions D11, D12, logs 9 and 10).
A destination of register 0 discards the value (R22). -/
def Obligations.StoreThenLoadReturnsTheValue : Prop :=
  ∀ rd rs2 rs1 imm rs1' imm' s t, t.effAddr rs1' imm' = s.effAddr rs1 imm →
    (Accessible (s.effAddr rs1 imm).toNat 4 → exec (.sw rs2 rs1 imm) s = .next t →
      ∃ u, exec (.lw rd rs1' imm') t = .next u ∧ u.readReg rd = if rd = 0 then 0 else s.readReg rs2) ∧
    (Accessible (s.effAddr rs1 imm).toNat 2 → exec (.sh rs2 rs1 imm) s = .next t →
      ∃ u, exec (.lh rd rs1' imm') t = .next u ∧ u.readReg rd = if rd = 0 then 0 else ((s.readReg rs2).extractLsb 15 0).signExtend 32) ∧
    (Accessible (s.effAddr rs1 imm).toNat 1 → exec (.sb rs2 rs1 imm) s = .next t →
      ∃ u, exec (.lb rd rs1' imm') t = .next u ∧ u.readReg rd = if rd = 0 then 0 else ((s.readReg rs2).extractLsb 7 0).signExtend 32)

/-- R45, R46: fetch finds the word stored at the address and nothing else: a word that is fetched stands at a multiple of 4 below
0x10000000, and in a state whose instruction memory is well formed it is the one entry there. -/
def Obligations.FetchReadsTheStoredWord : Prop :=
  (∀ (s : State) a, a.toNat % 4 ≠ 0 ∨ 0x10000000 ≤ a.toNat → s.ifetch a = none) ∧
  (∀ (s : State) a w, s.instrMemWf → (s.ifetch a = some w ↔ (a.toNat, w) ∈ s.im))

/-- 10_state.md R33: the instruction memory is constant during a run, whatever is executed. -/
def Obligations.InstructionMemoryIsConstant : Prop := ∀ s t, step s = .next t → t.im = s.im

/-! ## The cycle -/

/-- A step runs the decoded instruction: where the word at the pc is not zero and decodes to `i`, a step of a core that is not
halted is `exec i`, with the pulse lowered before it (log 8) and the retired count raised after it (the spec's decision D19). -/
def Obligations.StepRunsTheDecodedInstruction : Prop :=
  ∀ s w i, s.halted = false → s.ifetch s.pc = some w → w ≠ 0 → decode w = .ok i →
    step s = (match exec i { s with errPulse := false } with
      | .next t => .next { t with retired := t.retired + 1 }
      | .fault r => .fault r
      | .refused r => .refused r)

/-- 40_cycle.md R101: no word at the pc halts the core with cause FETCH_MISS; no register, memory byte or pc changes. -/
def Obligations.FetchMissHalts : Prop :=
  ∀ s : State, s.halted = false → s.ifetch s.pc = none → step s = .next (HaltedBy s .fetchMiss)

/-- R102: the zero word at the pc halts the core with cause SENTINEL; no register, memory byte or pc changes. -/
def Obligations.SentinelHalts : Prop :=
  ∀ s : State, s.halted = false → s.ifetch s.pc = some 0 → step s = .next (HaltedBy s .sentinel)

/-- R104: a word that is not zero and is one of R85's illegal words halts the core with cause ILLEGAL; no register, memory byte or
pc changes. That it halts is the spec's decision D7; that the model answers the halted state is log 1. -/
def Obligations.IllegalWordHalts : Prop :=
  ∀ (s : State) w, s.halted = false → s.ifetch s.pc = some w → w ≠ 0 → IllegalWord w →
    step s = .next (HaltedBy s .illegal)

/-- 10_state.md R35: while the core is halted a step changes nothing, and the cause codes are 0 to 3. The halt status is the spec's
decision D14. -/
def Obligations.HaltedCoreStaysHalted : Prop :=
  (∀ s : State, s.halted = true → step s = .next s) ∧
  HaltCause.code .none = 0 ∧ HaltCause.code .fetchMiss = 1 ∧ HaltCause.code .sentinel = 2 ∧ HaltCause.code .illegal = 3

/-- Every state has a next state: no step of this core ends in a fault or a refusal (93_implementation_defined.md U14: "the step
function always has a next state"; for illegal words by the model's choice, log 1). -/
def Obligations.EveryStepAnswersNext : Prop := ∀ s, ∃ t, step s = .next t

/-- 10_state.md R37, 40_cycle.md R116: a step of a core that is not halted either retires exactly one instruction and leaves the halt
status, or halts and changes nothing but the halt status (the spec's decision D14) and the pulse (log 8). What the counter counts is
the spec's decision D19. -/
def Obligations.StepRetiresOrHalts : Prop :=
  ∀ s t, s.halted = false → step s = .next t →
    (t.retired = s.retired + 1 ∧ t.halted = false ∧ t.haltCause = s.haltCause) ∨
    (∃ cause, cause ≠ .none ∧ t = HaltedBy s cause)

/-- 00_scope.md R12, 60_exceptions.md R182: a run ends normally exactly by a fetch miss or a sentinel; an illegal word is never a
normal end. -/
def Obligations.NormalEndIsMissOrSentinel : Prop :=
  ∀ s t, s.halted = false → step s = .next t →
    (t.endedNormally = true ↔ s.ifetch s.pc = none ∨ s.ifetch s.pc = some 0)

/-- 40_cycle.md R114: the step function written over the decoder's record, RA, RB, RM, RY and the opcode map is the same function as
`step`, which runs one meaning per instruction. That a cycle lowers the error pulse first is log 8; that RY takes the ALU's
result outside loads and jumps is derived by the spec (R110, log 19). -/
def Obligations.DatapathStepIsStep : Prop := ∀ s, datapathStep s = step s

/-! ## The invariant, reset and the host's port -/

/-- 10_state.md R38, 70_reset_and_hazards.md R200, R201: the values reset leaves, and that the reset input leaves memory alone (the spec's
decisions D14, D18, D19, D24). -/
def Obligations.ResetLeavesTheStatedValues : Prop :=
  AfterReset State.reset ∧ State.reset.im = [] ∧ State.reset.dm = [] ∧ State.reset.sm = [] ∧
  ∀ s : State, AfterReset s.hostReset ∧ s.hostReset.im = s.im ∧ s.hostReset.dm = s.dm ∧ s.hostReset.sm = s.sm

/-- The invariant holds right after reset. -/
def Obligations.ResetMeetsTheInvariant : Prop := State.reset.Inv

/-- Every step keeps the invariant: register 0 is zero, the three memories are canonical and hold addresses of their own segment
only, the pc is even, the status fields agree (10_state.md R21, R27, R35, R36; 20_memory.md R41, R45, R53). -/
def Obligations.StepKeepsTheInvariant : Prop := ∀ s t, s.Inv → step s = .next t → t.Inv

/-- The host's port keeps the invariant too: the reset input (log 16), a line of the image that the port accepts (log 15), and a word
placed at the fetch, which is the model's own interface and no action of the hardware (log 21). -/
def Obligations.HostPortKeepsTheInvariant : Prop :=
  (∀ s : State, s.Inv → s.hostReset.Inv) ∧
  (∀ (s t : State) addr data, s.Inv → s.loadCell addr data = .next t → t.Inv) ∧
  (∀ (s : State) nbits w, s.Inv → (s.withFetchWord nbits w).Inv)

/-- 70_reset_and_hazards.md R204: before the first cycle a line of the image goes to the instruction memory as a whole word below
0x10000000 and as four little-endian bytes elsewhere, and nothing else changes. The refused lines are those of R203 and R205: a
misaligned instruction address, data that would pass the end of its segment or of the address space, any line during a run (the
spec's decision D22; how the model tells that a run has begun, and the names of the refusals, are log 15). -/
def Obligations.ImageLinesAreRouted : Prop :=
  (∀ (s : State) (addr data : Word), s.retired = 0 → s.halted = false →
    (addr.toNat < 0x10000000 → addr.toNat % 4 = 0 →
      ∃ t, s.loadCell addr data = .next t ∧ t.ifetch addr = some data ∧
        (∀ a, a ≠ addr → t.ifetch a = s.ifetch a) ∧ (∀ a, t.byteAt a = s.byteAt a) ∧ OnlyMemoryChanges s t) ∧
    (0x10000000 ≤ addr.toNat → addr.toNat + 4 ≤ (if addr.toNat < 0x50000000 then 0x50000000 else 2 ^ 32) →
      ∃ t, s.loadCell addr data = .next t ∧ t.im = s.im ∧
        (∀ k, k < 4 → (t.byteAt (addr.toNat + k)).toNat = data.toNat / 256 ^ k % 256) ∧
        (∀ a, a < addr.toNat ∨ addr.toNat + 4 ≤ a → t.byteAt a = s.byteAt a) ∧ OnlyMemoryChanges s t) ∧
    (addr.toNat < 0x10000000 → addr.toNat % 4 ≠ 0 → s.loadCell addr data = .refused .imageMisaligned) ∧
    (0x10000000 ≤ addr.toNat → (if addr.toNat < 0x50000000 then 0x50000000 else 2 ^ 32) < addr.toNat + 4 →
      s.loadCell addr data = .refused .imagePastSegmentEnd)) ∧
  (∀ (s : State) (addr data : Word), s.retired ≠ 0 ∨ s.halted = true → s.loadCell addr data = .refused .imageDuringRun)

/-- A word placed where the step fetches is what the next step runs, from every state: the state is not halted, the word is what
fetch finds at its pc, the pc is kept where a word can be stored at it and is 0 where none can, and nothing else but the halt
status and the instruction memory has changed. This is the model's own interface and no action of the hardware (log 21). -/
def Obligations.PlacedWordIsFetched : Prop :=
  ∀ (s : State) w, w < 2 ^ 32 →
    let t := s.withFetchWord 32 w
    t.halted = false ∧ t.haltCause = .none ∧ t.ifetch t.pc = some (BitVec.ofNat 32 w) ∧
    (∀ a, a ≠ t.pc → t.ifetch a = s.ifetch a) ∧
    (fetchable s.pc = true → t.pc = s.pc) ∧ (fetchable s.pc = false → t.pc = 0) ∧
    RegistersKept s t ∧ (∀ a, t.byteAt a = s.byteAt a) ∧
    t.errMemRegion = s.errMemRegion ∧ t.errPulse = s.errPulse ∧ t.retired = s.retired ∧ t.draws = s.draws
end

