-- ==== Sys2Proof/Laws/Encoding.lean ====
section
/-! SUPPORT. The bits and fields of an encoded word (30_encoding.md R71 to R76), a word put together again from its fields, the
masks of the opcode map (R80), the field an immediate came from (R79), and the decoder opcode by opcode. -/

namespace Sys2Proof

/-- Two words with the same 32 bits are equal. -/
theorem word_ext {v w : Word} (h : ∀ k, k < 32 → v.getLsbD k = w.getLsbD k) : v = w := BitVec.eq_of_getLsbD_eq h

section Pack

variable (f7 : BitVec 7) (rs2 rs1 rd : RegIdx) (f3 : BitVec 3) (op : BitVec 7)
variable (imm12 : BitVec 12) (imm13 : BitVec 13) (imm20 : BitVec 20) (imm21 : BitVec 21)

/-! ## The bits of each format -/

theorem packR_bit (k : Nat) : (packR f7 rs2 rs1 f3 rd op).getLsbD k =
    if k < 7 then op.getLsbD k else if k < 12 then rd.getLsbD (k - 7) else 
    if k < 15 then f3.getLsbD (k - 12) else if k < 20 then rs1.getLsbD (k - 15) else 
    if k < 25 then rs2.getLsbD (k - 20) else f7.getLsbD (k - 25) := by
  show BitVec.getLsbD (w := 7 + 5 + 5 + 3 + 5 + 7) (f7 ++ rs2 ++ rs1 ++ f3 ++ rd ++ op) k = _
  simp only [BitVec.getLsbD_append]
  repeat' split
  all_goals first | rfl | omega

theorem packI_bit (k : Nat) : (packI imm12 rs1 f3 rd op).getLsbD k =
    if k < 7 then op.getLsbD k else if k < 12 then rd.getLsbD (k - 7) else 
    if k < 15 then f3.getLsbD (k - 12) else if k < 20 then rs1.getLsbD (k - 15) else 
    imm12.getLsbD (k - 20) := by
  show BitVec.getLsbD (w := 12 + 5 + 3 + 5 + 7) (imm12 ++ rs1 ++ f3 ++ rd ++ op) k = _
  simp only [BitVec.getLsbD_append]
  repeat' split
  all_goals first | rfl | omega

theorem packS_bit (k : Nat) : (packS imm12 rs2 rs1 f3 op).getLsbD k =
    if k < 7 then op.getLsbD k else if k < 12 then (imm12.extractLsb' 0 5).getLsbD (k - 7) else 
    if k < 15 then f3.getLsbD (k - 12) else if k < 20 then rs1.getLsbD (k - 15) else 
    if k < 25 then rs2.getLsbD (k - 20) else (imm12.extractLsb' 5 7).getLsbD (k - 25) := by
  show BitVec.getLsbD (w := 7 + 5 + 5 + 3 + 5 + 7) (imm12.extractLsb' 5 7 ++ rs2 ++ rs1 ++ f3 ++ imm12.extractLsb' 0 5 ++ op) k = _
  simp only [BitVec.getLsbD_append]
  repeat' split
  all_goals first | rfl | omega

theorem packSB_bit (k : Nat) : (packSB imm13 rs2 rs1 f3 op).getLsbD k =
    if k < 7 then op.getLsbD k else if k < 8 then (imm13.extractLsb' 11 1).getLsbD (k - 7) else 
    if k < 12 then (imm13.extractLsb' 1 4).getLsbD (k - 8) else if k < 15 then f3.getLsbD (k - 12) else 
    if k < 20 then rs1.getLsbD (k - 15) else if k < 25 then rs2.getLsbD (k - 20) else 
    if k < 31 then (imm13.extractLsb' 5 6).getLsbD (k - 25) else (imm13.extractLsb' 12 1).getLsbD (k - 31) := by
  show BitVec.getLsbD (w := 1 + 6 + 5 + 5 + 3 + 4 + 1 + 7) (imm13.extractLsb' 12 1 ++ imm13.extractLsb' 5 6 ++ rs2 ++ rs1 ++ f3 ++ imm13.extractLsb' 1 4 ++ imm13.extractLsb' 11 1 ++ op) k = _
  simp only [BitVec.getLsbD_append]
  repeat' split
  all_goals first | rfl | omega

theorem packU_bit (k : Nat) : (packU imm20 rd op).getLsbD k =
    if k < 7 then op.getLsbD k else if k < 12 then rd.getLsbD (k - 7) else 
    imm20.getLsbD (k - 12) := by
  show BitVec.getLsbD (w := 20 + 5 + 7) (imm20 ++ rd ++ op) k = _
  simp only [BitVec.getLsbD_append]
  repeat' split
  all_goals first | rfl | omega

theorem packUJ_bit (k : Nat) : (packUJ imm21 rd op).getLsbD k =
    if k < 7 then op.getLsbD k else if k < 12 then rd.getLsbD (k - 7) else 
    if k < 20 then (imm21.extractLsb' 12 8).getLsbD (k - 12) else if k < 21 then (imm21.extractLsb' 11 1).getLsbD (k - 20) else 
    if k < 31 then (imm21.extractLsb' 1 10).getLsbD (k - 21) else (imm21.extractLsb' 20 1).getLsbD (k - 31) := by
  show BitVec.getLsbD (w := 1 + 10 + 1 + 8 + 5 + 7) (imm21.extractLsb' 20 1 ++ imm21.extractLsb' 1 10 ++ imm21.extractLsb' 11 1 ++ imm21.extractLsb' 12 8 ++ rd ++ op) k = _
  simp only [BitVec.getLsbD_append]
  repeat' split
  all_goals first | rfl | omega

theorem fieldS_bit (w : Word) (k : Nat) : (fieldS w).getLsbD k =
    if k < 5 then (w.extractLsb' 7 5).getLsbD k else (w.extractLsb' 25 7).getLsbD (k - 5) := by
  show BitVec.getLsbD (w := 7 + 5) (w.extractLsb' 25 7 ++ w.extractLsb' 7 5) k = _
  simp only [BitVec.getLsbD_append]

theorem fieldSB_bit (w : Word) (k : Nat) : (fieldSB w).getLsbD k =
    if k < 1 then (0#1).getLsbD k else if k < 5 then (w.extractLsb' 8 4).getLsbD (k - 1)
    else if k < 11 then (w.extractLsb' 25 6).getLsbD (k - 5)
    else if k < 12 then (w.extractLsb' 7 1).getLsbD (k - 11) else (w.extractLsb' 31 1).getLsbD (k - 12) := by
  show BitVec.getLsbD (w := 1 + 1 + 6 + 4 + 1)
    (w.extractLsb' 31 1 ++ w.extractLsb' 7 1 ++ w.extractLsb' 25 6 ++ w.extractLsb' 8 4 ++ 0#1) k = _
  simp only [BitVec.getLsbD_append]
  repeat' split
  all_goals first | rfl | omega

theorem fieldUJ_bit (w : Word) (k : Nat) : (fieldUJ w).getLsbD k =
    if k < 1 then (0#1).getLsbD k else if k < 11 then (w.extractLsb' 21 10).getLsbD (k - 1)
    else if k < 12 then (w.extractLsb' 20 1).getLsbD (k - 11)
    else if k < 20 then (w.extractLsb' 12 8).getLsbD (k - 12) else (w.extractLsb' 31 1).getLsbD (k - 20) := by
  show BitVec.getLsbD (w := 1 + 8 + 1 + 10 + 1)
    (w.extractLsb' 31 1 ++ w.extractLsb' 12 8 ++ w.extractLsb' 20 1 ++ w.extractLsb' 21 10 ++ 0#1) k = _
  simp only [BitVec.getLsbD_append]
  repeat' split
  all_goals first | rfl | omega

/-! ## The fields of each format -/

@[simp] theorem opcodeOf_packR : opcodeOf (packR f7 rs2 rs1 f3 rd op) = op := by
  refine BitVec.eq_of_getLsbD_eq fun k hk => ?_
  simp only [opcodeOf, BitVec.getLsbD_extractLsb', packR_bit]
  interval_cases k <;> simp

@[simp] theorem rdOf_packR : rdOf (packR f7 rs2 rs1 f3 rd op) = rd := by
  refine BitVec.eq_of_getLsbD_eq fun k hk => ?_
  simp only [rdOf, BitVec.getLsbD_extractLsb', packR_bit]
  interval_cases k <;> simp

@[simp] theorem funct3Of_packR : funct3Of (packR f7 rs2 rs1 f3 rd op) = f3 := by
  refine BitVec.eq_of_getLsbD_eq fun k hk => ?_
  simp only [funct3Of, BitVec.getLsbD_extractLsb', packR_bit]
  interval_cases k <;> simp

@[simp] theorem rs1Of_packR : rs1Of (packR f7 rs2 rs1 f3 rd op) = rs1 := by
  refine BitVec.eq_of_getLsbD_eq fun k hk => ?_
  simp only [rs1Of, BitVec.getLsbD_extractLsb', packR_bit]
  interval_cases k <;> simp

@[simp] theorem rs2Of_packR : rs2Of (packR f7 rs2 rs1 f3 rd op) = rs2 := by
  refine BitVec.eq_of_getLsbD_eq fun k hk => ?_
  simp only [rs2Of, BitVec.getLsbD_extractLsb', packR_bit]
  interval_cases k <;> simp

@[simp] theorem funct7Of_packR : funct7Of (packR f7 rs2 rs1 f3 rd op) = f7 := by
  refine BitVec.eq_of_getLsbD_eq fun k hk => ?_
  simp only [funct7Of, BitVec.getLsbD_extractLsb', packR_bit]
  interval_cases k <;> simp

@[simp] theorem opcodeOf_packI : opcodeOf (packI imm12 rs1 f3 rd op) = op := by
  refine BitVec.eq_of_getLsbD_eq fun k hk => ?_
  simp only [opcodeOf, BitVec.getLsbD_extractLsb', packI_bit]
  interval_cases k <;> simp

@[simp] theorem rdOf_packI : rdOf (packI imm12 rs1 f3 rd op) = rd := by
  refine BitVec.eq_of_getLsbD_eq fun k hk => ?_
  simp only [rdOf, BitVec.getLsbD_extractLsb', packI_bit]
  interval_cases k <;> simp

@[simp] theorem funct3Of_packI : funct3Of (packI imm12 rs1 f3 rd op) = f3 := by
  refine BitVec.eq_of_getLsbD_eq fun k hk => ?_
  simp only [funct3Of, BitVec.getLsbD_extractLsb', packI_bit]
  interval_cases k <;> simp

@[simp] theorem rs1Of_packI : rs1Of (packI imm12 rs1 f3 rd op) = rs1 := by
  refine BitVec.eq_of_getLsbD_eq fun k hk => ?_
  simp only [rs1Of, BitVec.getLsbD_extractLsb', packI_bit]
  interval_cases k <;> simp

@[simp] theorem fieldI_packI : fieldI (packI imm12 rs1 f3 rd op) = imm12 := by
  refine BitVec.eq_of_getLsbD_eq fun k hk => ?_
  simp only [fieldI, BitVec.getLsbD_extractLsb', packI_bit]
  interval_cases k <;> simp

@[simp] theorem opcodeOf_packS : opcodeOf (packS imm12 rs2 rs1 f3 op) = op := by
  refine BitVec.eq_of_getLsbD_eq fun k hk => ?_
  simp only [opcodeOf, BitVec.getLsbD_extractLsb', packS_bit]
  interval_cases k <;> simp

@[simp] theorem funct3Of_packS : funct3Of (packS imm12 rs2 rs1 f3 op) = f3 := by
  refine BitVec.eq_of_getLsbD_eq fun k hk => ?_
  simp only [funct3Of, BitVec.getLsbD_extractLsb', packS_bit]
  interval_cases k <;> simp

@[simp] theorem rs1Of_packS : rs1Of (packS imm12 rs2 rs1 f3 op) = rs1 := by
  refine BitVec.eq_of_getLsbD_eq fun k hk => ?_
  simp only [rs1Of, BitVec.getLsbD_extractLsb', packS_bit]
  interval_cases k <;> simp

@[simp] theorem rs2Of_packS : rs2Of (packS imm12 rs2 rs1 f3 op) = rs2 := by
  refine BitVec.eq_of_getLsbD_eq fun k hk => ?_
  simp only [rs2Of, BitVec.getLsbD_extractLsb', packS_bit]
  interval_cases k <;> simp

@[simp] theorem fieldS_packS : fieldS (packS imm12 rs2 rs1 f3 op) = imm12 := by
  refine BitVec.eq_of_getLsbD_eq fun k hk => ?_
  simp only [fieldS_bit, BitVec.getLsbD_extractLsb', packS_bit]
  interval_cases k <;> simp

@[simp] theorem opcodeOf_packSB : opcodeOf (packSB imm13 rs2 rs1 f3 op) = op := by
  refine BitVec.eq_of_getLsbD_eq fun k hk => ?_
  simp only [opcodeOf, BitVec.getLsbD_extractLsb', packSB_bit]
  interval_cases k <;> simp

@[simp] theorem funct3Of_packSB : funct3Of (packSB imm13 rs2 rs1 f3 op) = f3 := by
  refine BitVec.eq_of_getLsbD_eq fun k hk => ?_
  simp only [funct3Of, BitVec.getLsbD_extractLsb', packSB_bit]
  interval_cases k <;> simp

@[simp] theorem rs1Of_packSB : rs1Of (packSB imm13 rs2 rs1 f3 op) = rs1 := by
  refine BitVec.eq_of_getLsbD_eq fun k hk => ?_
  simp only [rs1Of, BitVec.getLsbD_extractLsb', packSB_bit]
  interval_cases k <;> simp

@[simp] theorem rs2Of_packSB : rs2Of (packSB imm13 rs2 rs1 f3 op) = rs2 := by
  refine BitVec.eq_of_getLsbD_eq fun k hk => ?_
  simp only [rs2Of, BitVec.getLsbD_extractLsb', packSB_bit]
  interval_cases k <;> simp

@[simp] theorem opcodeOf_packU : opcodeOf (packU imm20 rd op) = op := by
  refine BitVec.eq_of_getLsbD_eq fun k hk => ?_
  simp only [opcodeOf, BitVec.getLsbD_extractLsb', packU_bit]
  interval_cases k <;> simp

@[simp] theorem rdOf_packU : rdOf (packU imm20 rd op) = rd := by
  refine BitVec.eq_of_getLsbD_eq fun k hk => ?_
  simp only [rdOf, BitVec.getLsbD_extractLsb', packU_bit]
  interval_cases k <;> simp

@[simp] theorem fieldU_packU : fieldU (packU imm20 rd op) = imm20 := by
  refine BitVec.eq_of_getLsbD_eq fun k hk => ?_
  simp only [fieldU, BitVec.getLsbD_extractLsb', packU_bit]
  interval_cases k <;> simp

@[simp] theorem opcodeOf_packUJ : opcodeOf (packUJ imm21 rd op) = op := by
  refine BitVec.eq_of_getLsbD_eq fun k hk => ?_
  simp only [opcodeOf, BitVec.getLsbD_extractLsb', packUJ_bit]
  interval_cases k <;> simp

@[simp] theorem rdOf_packUJ : rdOf (packUJ imm21 rd op) = rd := by
  refine BitVec.eq_of_getLsbD_eq fun k hk => ?_
  simp only [rdOf, BitVec.getLsbD_extractLsb', packUJ_bit]
  interval_cases k <;> simp

/-- The immediate comes back whole when its bit 0 is zero: no word carries that bit (R79). -/
theorem fieldSB_packSB (h : imm13.getLsbD 0 = false) : fieldSB (packSB imm13 rs2 rs1 f3 op) = imm13 := by
  refine BitVec.eq_of_getLsbD_eq fun k hk => ?_
  simp only [fieldSB_bit, BitVec.getLsbD_extractLsb', packSB_bit]
  interval_cases k <;> simp_all

/-- The immediate comes back whole when its bit 0 is zero: no word carries that bit (R79). -/
theorem fieldUJ_packUJ (h : imm21.getLsbD 0 = false) : fieldUJ (packUJ imm21 rd op) = imm21 := by
  refine BitVec.eq_of_getLsbD_eq fun k hk => ?_
  simp only [fieldUJ_bit, BitVec.getLsbD_extractLsb', packUJ_bit]
  interval_cases k <;> simp_all

end Pack

/-! ## A word is put together again from its fields -/

theorem packR_of_fields (w : Word) : packR (funct7Of w) (rs2Of w) (rs1Of w) (funct3Of w) (rdOf w) (opcodeOf w) = w := by
  refine word_ext fun k hk => ?_
  simp only [packR_bit, funct7Of, rs2Of, rs1Of, funct3Of, rdOf, opcodeOf, BitVec.getLsbD_extractLsb']
  interval_cases k <;> simp

theorem packI_of_fields (w : Word) : packI (fieldI w) (rs1Of w) (funct3Of w) (rdOf w) (opcodeOf w) = w := by
  refine word_ext fun k hk => ?_
  simp only [packI_bit, fieldI, rs1Of, funct3Of, rdOf, opcodeOf, BitVec.getLsbD_extractLsb']
  interval_cases k <;> simp

theorem packS_of_fields (w : Word) : packS (fieldS w) (rs2Of w) (rs1Of w) (funct3Of w) (opcodeOf w) = w := by
  refine word_ext fun k hk => ?_
  simp only [packS_bit, fieldS_bit, rs2Of, rs1Of, funct3Of, opcodeOf, BitVec.getLsbD_extractLsb']
  interval_cases k <;> simp

theorem packSB_of_fields (w : Word) : packSB (fieldSB w) (rs2Of w) (rs1Of w) (funct3Of w) (opcodeOf w) = w := by
  refine word_ext fun k hk => ?_
  simp only [packSB_bit, fieldSB_bit, rs2Of, rs1Of, funct3Of, opcodeOf, BitVec.getLsbD_extractLsb']
  interval_cases k <;> simp

theorem packU_of_fields (w : Word) : packU (fieldU w) (rdOf w) (opcodeOf w) = w := by
  refine word_ext fun k hk => ?_
  simp only [packU_bit, fieldU, rdOf, opcodeOf, BitVec.getLsbD_extractLsb']
  interval_cases k <;> simp

theorem packUJ_of_fields (w : Word) : packUJ (fieldUJ w) (rdOf w) (opcodeOf w) = w := by
  refine word_ext fun k hk => ?_
  simp only [packUJ_bit, fieldUJ_bit, rdOf, opcodeOf, BitVec.getLsbD_extractLsb']
  interval_cases k <;> simp

/-- The immediates of branches and of JAL that a word carries are even (R79). -/
theorem fieldSB_even (w : Word) : (fieldSB w).getLsbD 0 = false := by simp only [fieldSB_bit]; rfl

theorem fieldUJ_even (w : Word) : (fieldUJ w).getLsbD 0 = false := by simp only [fieldUJ_bit]; rfl

/-! ## The masks of the opcode map (R80) -/

section Mask

variable (w : Word) (f7 : BitVec 7) (f3 : BitVec 3) (op : BitVec 7)

/-- The mask of the rows with opcode, funct3 and funct7. -/
theorem mask_opcode_funct3_funct7 : w &&& 0xFE00707F#32 = packR f7 0#5 0#5 f3 0#5 op ↔
    opcodeOf w = op ∧ funct3Of w = f3 ∧ funct7Of w = f7 := by
  have h : w &&& 0xFE00707F#32 = packR (funct7Of w) 0#5 0#5 (funct3Of w) 0#5 (opcodeOf w) := by
    refine word_ext fun k hk => ?_
    simp only [BitVec.getLsbD_and, packR_bit, funct7Of, funct3Of, opcodeOf, BitVec.getLsbD_extractLsb']
    interval_cases k <;> simp
  constructor
  · intro e
    have e' := h.symm.trans e
    exact ⟨by simpa using congrArg opcodeOf e', by simpa using congrArg funct3Of e', by simpa using congrArg funct7Of e'⟩
  · rintro ⟨rfl, rfl, rfl⟩; exact h

/-- The mask of the rows with opcode and funct3. -/
theorem mask_opcode_funct3 : w &&& 0x0000707F#32 = packR 0#7 0#5 0#5 f3 0#5 op ↔ opcodeOf w = op ∧ funct3Of w = f3 := by
  have h : w &&& 0x0000707F#32 = packR 0#7 0#5 0#5 (funct3Of w) 0#5 (opcodeOf w) := by
    refine word_ext fun k hk => ?_
    simp only [BitVec.getLsbD_and, packR_bit, funct3Of, opcodeOf, BitVec.getLsbD_extractLsb']
    interval_cases k <;> simp
  constructor
  · intro e
    have e' := h.symm.trans e
    exact ⟨by simpa using congrArg opcodeOf e', by simpa using congrArg funct3Of e'⟩
  · rintro ⟨rfl, rfl⟩; exact h

/-- The mask of the rows with the opcode alone. -/
theorem mask_opcode : w &&& 0x0000007F#32 = packR 0#7 0#5 0#5 0#3 0#5 op ↔ opcodeOf w = op := by
  have h : w &&& 0x0000007F#32 = packR 0#7 0#5 0#5 0#3 0#5 (opcodeOf w) := by
    refine word_ext fun k hk => ?_
    simp only [BitVec.getLsbD_and, packR_bit, opcodeOf, BitVec.getLsbD_extractLsb']
    interval_cases k <;> simp
  constructor
  · intro e; simpa using congrArg opcodeOf (h.symm.trans e)
  · rintro rfl; exact h

end Mask

/-! ## The field a 32-bit immediate came from (R79) -/

theorem extract_signExtend_12 (v : BitVec 12) : (v.signExtend 32).extractLsb' 0 12 = v := by
  refine BitVec.eq_of_getLsbD_eq fun k hk => ?_
  simp only [BitVec.getLsbD_extractLsb', BitVec.getLsbD_signExtend]
  interval_cases k <;> simp

theorem extract_signExtend_13 (v : BitVec 13) : (v.signExtend 32).extractLsb' 0 13 = v := by
  refine BitVec.eq_of_getLsbD_eq fun k hk => ?_
  simp only [BitVec.getLsbD_extractLsb', BitVec.getLsbD_signExtend]
  interval_cases k <;> simp

theorem extract_signExtend_21 (v : BitVec 21) : (v.signExtend 32).extractLsb' 0 21 = v := by
  refine BitVec.eq_of_getLsbD_eq fun k hk => ?_
  simp only [BitVec.getLsbD_extractLsb', BitVec.getLsbD_signExtend]
  interval_cases k <;> simp

theorem extract_shiftAmount (v : BitVec 12) : (v.signExtend 32).extractLsb' 0 5 = v.extractLsb' 0 5 := by
  refine BitVec.eq_of_getLsbD_eq fun k hk => ?_
  simp only [BitVec.getLsbD_extractLsb', BitVec.getLsbD_signExtend]
  interval_cases k <;> simp

theorem extract_top (v : BitVec 12) : (v.signExtend 32).extractLsb' 5 7 = v.extractLsb' 5 7 := by
  refine BitVec.eq_of_getLsbD_eq fun k hk => ?_
  simp only [BitVec.getLsbD_extractLsb', BitVec.getLsbD_signExtend]
  interval_cases k <;> simp

theorem extract_upper (v : BitVec 20) : (v ++ 0#12 : Word).extractLsb' 12 20 = v := by
  refine BitVec.eq_of_getLsbD_eq fun k hk => ?_
  show (BitVec.extractLsb' 12 20 (v ++ 0#12 : BitVec (20 + 12))).getLsbD k = _
  simp only [BitVec.getLsbD_extractLsb', BitVec.getLsbD_append]
  interval_cases k <;> simp

/-- The `top` and the amount of a shift's immediate field (R72). -/
theorem top_append (t : BitVec 7) (sh : BitVec 5) :
    (t ++ sh : BitVec 12).extractLsb' 5 7 = t ∧ (t ++ sh : BitVec 12).extractLsb' 0 5 = sh := by
  constructor
  · refine BitVec.eq_of_getLsbD_eq fun k hk => ?_
    show (BitVec.extractLsb' 5 7 (t ++ sh : BitVec (7 + 5))).getLsbD k = _
    simp only [BitVec.getLsbD_extractLsb', BitVec.getLsbD_append]
    interval_cases k <;> simp
  · refine BitVec.eq_of_getLsbD_eq fun k hk => ?_
    show (BitVec.extractLsb' 0 5 (t ++ sh : BitVec (7 + 5))).getLsbD k = _
    simp only [BitVec.getLsbD_extractLsb', BitVec.getLsbD_append]
    interval_cases k <;> simp

theorem append_top (v : BitVec 12) : (v.extractLsb' 5 7 ++ v.extractLsb' 0 5 : BitVec 12) = v := by
  refine BitVec.eq_of_getLsbD_eq fun k hk => ?_
  show BitVec.getLsbD (w := 7 + 5) (v.extractLsb' 5 7 ++ v.extractLsb' 0 5) k = _
  simp only [BitVec.getLsbD_extractLsb', BitVec.getLsbD_append]
  interval_cases k <;> simp

/-! ## The decoder, opcode by opcode (R77, R78, R80) -/

section DecodeByOpcode

variable {w : Word}

/-- The record of a word of format I. -/
theorem fieldsOf_I (h : opcodeOf w = 0x13#7 ∨ opcodeOf w = 0x03#7 ∨ opcodeOf w = 0x67#7) :
    fieldsOf w = ⟨opcodeOf w, rdOf w, rs1Of w, 0#5, funct3Of w, 0#7, (fieldI w).signExtend 32⟩ := by
  rcases h with h | h | h <;> simp [fieldsOf, formatOf, immOf, h]

theorem decode_op (h : opcodeOf w = 0x33#7) :
    decode w = decodeOp ⟨0x33#7, rdOf w, rs1Of w, rs2Of w, funct3Of w, funct7Of w, 0#32⟩ := by
  simp [decode, decodeFields, fieldsOf, formatOf, immOf, h]

theorem decode_opImm (h : opcodeOf w = 0x13#7) :
    decode w = decodeOpImm ⟨0x13#7, rdOf w, rs1Of w, 0#5, funct3Of w, 0#7, (fieldI w).signExtend 32⟩ := by
  simp [decode, decodeFields, fieldsOf, formatOf, immOf, h]

theorem decode_load (h : opcodeOf w = 0x03#7) :
    decode w = decodeLoad ⟨0x03#7, rdOf w, rs1Of w, 0#5, funct3Of w, 0#7, (fieldI w).signExtend 32⟩ := by
  simp [decode, decodeFields, fieldsOf, formatOf, immOf, h]

theorem decode_store (h : opcodeOf w = 0x23#7) :
    decode w = decodeStore ⟨0x23#7, rdOf w, rs1Of w, rs2Of w, funct3Of w, funct7Of w, (fieldS w).signExtend 32⟩ := by
  simp [decode, decodeFields, fieldsOf, formatOf, immOf, h]

theorem decode_branch (h : opcodeOf w = 0x63#7) :
    decode w = decodeBranch ⟨0x63#7, rdOf w, rs1Of w, rs2Of w, funct3Of w, funct7Of w, (fieldSB w).signExtend 32⟩ := by
  simp [decode, decodeFields, fieldsOf, formatOf, immOf, h]

theorem decode_jal (h : opcodeOf w = 0x6F#7) : decode w = .ok (.jal (rdOf w) (fieldUJ w)) := by
  simp [decode, decodeFields, fieldsOf, formatOf, immOf, h, Fields.immLow, extract_signExtend_21]

theorem decode_jalr (h : opcodeOf w = 0x67#7) :
    decode w = .ok (.jalr (rdOf w) (rs1Of w) (funct3Of w) (fieldI w)) := by
  simp [decode, decodeFields, fieldsOf, formatOf, immOf, h, Fields.immLow, extract_signExtend_12]

theorem decode_lui (h : opcodeOf w = 0x37#7) : decode w = .ok (.lui (rdOf w) (fieldU w)) := by
  simp [decode, decodeFields, fieldsOf, formatOf, immOf, h, extract_upper]

theorem decode_auipc (h : opcodeOf w = 0x17#7) : decode w = .ok (.auipc (rdOf w) (fieldU w)) := by
  simp [decode, decodeFields, fieldsOf, formatOf, immOf, h, extract_upper]

/-- A word of any other opcode is rejected (R85). -/
theorem decode_other (h : formatOf (opcodeOf w) = .none) : decode w = .error .opcode := by
  unfold formatOf at h
  repeat' split at h
  all_goals first | (cases h; done) | simp_all [decode, decodeFields, fieldsOf]

/-- The nine opcodes and the rest. -/
theorem opcode_cases (op : BitVec 7) : op = 0x33#7 ∨ op = 0x13#7 ∨ op = 0x03#7 ∨ op = 0x23#7 ∨ op = 0x63#7 ∨ op = 0x6F#7 ∨
    op = 0x67#7 ∨ op = 0x37#7 ∨ op = 0x17#7 ∨ formatOf op = .none := by
  unfold formatOf
  repeat' split
  all_goals simp_all
  all_goals tauto

end DecodeByOpcode

/-! ## What each selection answers (R81, R82, R80) -/

section DecodeCases

variable {f : Fields} {i : Instr}

/-- A conditional that answers `x`: the condition holds and the first branch answers it, or it fails and the second does. -/
theorem ite_answers {α : Type} {c : Prop} [Decidable c] {a b x : α} (h : (if c then a else b) = x) :
    (c ∧ a = x) ∨ (¬c ∧ b = x) := by
  by_cases hc : c
  · exact .inl ⟨hc, by rwa [if_pos hc] at h⟩
  · exact .inr ⟨hc, by rwa [if_neg hc] at h⟩

/-- Opcode 0x33: the twelve pairs (R81). -/
theorem decodeOp_cases (h : decodeOp f = .ok i) :
    (f.funct3 = 0#3 ∧ f.funct7 = 0x00#7 ∧ i = .add f.rd f.rs1 f.rs2) ∨
    (f.funct3 = 0#3 ∧ f.funct7 = 0x20#7 ∧ i = .sub f.rd f.rs1 f.rs2) ∨
    (f.funct3 = 0#3 ∧ f.funct7 = 0x01#7 ∧ i = .mul f.rd f.rs1 f.rs2) ∨
    (f.funct3 = 4#3 ∧ f.funct7 = 0x00#7 ∧ i = .xor f.rd f.rs1 f.rs2) ∨
    (f.funct3 = 4#3 ∧ f.funct7 = 0x01#7 ∧ i = .div f.rd f.rs1 f.rs2) ∨
    (f.funct3 = 6#3 ∧ f.funct7 = 0x00#7 ∧ i = .or f.rd f.rs1 f.rs2) ∨
    (f.funct3 = 6#3 ∧ f.funct7 = 0x01#7 ∧ i = .rem f.rd f.rs1 f.rs2) ∨
    (f.funct3 = 7#3 ∧ f.funct7 = 0x00#7 ∧ i = .and f.rd f.rs1 f.rs2) ∨
    (f.funct3 = 1#3 ∧ f.funct7 = 0x00#7 ∧ i = .sll f.rd f.rs1 f.rs2) ∨
    (f.funct3 = 2#3 ∧ f.funct7 = 0x00#7 ∧ i = .slt f.rd f.rs1 f.rs2) ∨
    (f.funct3 = 5#3 ∧ f.funct7 = 0x00#7 ∧ i = .srl f.rd f.rs1 f.rs2) ∨
    (f.funct3 = 5#3 ∧ f.funct7 = 0x20#7 ∧ i = .sra f.rd f.rs1 f.rs2) := by
  unfold decodeOp at h
  rcases ite_answers h with ⟨hc, h⟩ | ⟨-, h⟩
  · exact .inl ⟨hc.1, hc.2, (Except.ok.inj h).symm⟩
  rcases ite_answers h with ⟨hc, h⟩ | ⟨-, h⟩
  · exact .inr (.inl ⟨hc.1, hc.2, (Except.ok.inj h).symm⟩)
  rcases ite_answers h with ⟨hc, h⟩ | ⟨-, h⟩
  · exact .inr (.inr (.inl ⟨hc.1, hc.2, (Except.ok.inj h).symm⟩))
  rcases ite_answers h with ⟨hc, h⟩ | ⟨-, h⟩
  · exact .inr (.inr (.inr (.inl ⟨hc.1, hc.2, (Except.ok.inj h).symm⟩)))
  rcases ite_answers h with ⟨hc, h⟩ | ⟨-, h⟩
  · exact .inr (.inr (.inr (.inr (.inl ⟨hc.1, hc.2, (Except.ok.inj h).symm⟩))))
  rcases ite_answers h with ⟨hc, h⟩ | ⟨-, h⟩
  · exact .inr (.inr (.inr (.inr (.inr (.inl ⟨hc.1, hc.2, (Except.ok.inj h).symm⟩)))))
  rcases ite_answers h with ⟨hc, h⟩ | ⟨-, h⟩
  · exact .inr (.inr (.inr (.inr (.inr (.inr (.inl ⟨hc.1, hc.2, (Except.ok.inj h).symm⟩))))))
  rcases ite_answers h with ⟨hc, h⟩ | ⟨-, h⟩
  · exact .inr (.inr (.inr (.inr (.inr (.inr (.inr (.inl ⟨hc.1, hc.2, (Except.ok.inj h).symm⟩)))))))
  rcases ite_answers h with ⟨hc, h⟩ | ⟨-, h⟩
  · exact .inr (.inr (.inr (.inr (.inr (.inr (.inr (.inr (.inl ⟨hc.1, hc.2, (Except.ok.inj h).symm⟩))))))))
  rcases ite_answers h with ⟨hc, h⟩ | ⟨-, h⟩
  · exact .inr (.inr (.inr (.inr (.inr (.inr (.inr (.inr (.inr (.inl ⟨hc.1, hc.2, (Except.ok.inj h).symm⟩)))))))))
  rcases ite_answers h with ⟨hc, h⟩ | ⟨-, h⟩
  · exact .inr (.inr (.inr (.inr (.inr (.inr (.inr (.inr (.inr (.inr (.inl ⟨hc.1, hc.2, (Except.ok.inj h).symm⟩))))))))))
  rcases ite_answers h with ⟨hc, h⟩ | ⟨-, h⟩
  · exact .inr (.inr (.inr (.inr (.inr (.inr (.inr (.inr (.inr (.inr (.inr (⟨hc.1, hc.2, (Except.ok.inj h).symm⟩)))))))))))
  cases h

/-- Opcode 0x13: funct3, and the top for 5 (R82). -/
theorem decodeOpImm_cases (h : decodeOpImm f = .ok i) :
    (f.funct3 = 0#3 ∧ i = .addi f.rd f.rs1 (f.immLow 12)) ∨
    (f.funct3 = 7#3 ∧ i = .andi f.rd f.rs1 (f.immLow 12)) ∨
    (f.funct3 = 6#3 ∧ i = .ori f.rd f.rs1 (f.immLow 12)) ∨
    (f.funct3 = 4#3 ∧ i = .xori f.rd f.rs1 (f.immLow 12)) ∨
    (f.funct3 = 2#3 ∧ i = .slti f.rd f.rs1 (f.immLow 12)) ∨
    (f.funct3 = 1#3 ∧ i = .slli f.rd f.rs1 (f.immLow 12)) ∨
    (f.funct3 = 5#3 ∧ f.top = 0x00#7 ∧ i = .srli f.rd f.rs1 (f.immLow 5)) ∨
    (f.funct3 = 5#3 ∧ f.top = 0x20#7 ∧ i = .srai f.rd f.rs1 (f.immLow 5)) := by
  unfold decodeOpImm at h
  rcases ite_answers h with ⟨hc, h⟩ | ⟨-, h⟩
  · exact .inl ⟨hc, (Except.ok.inj h).symm⟩
  rcases ite_answers h with ⟨hc, h⟩ | ⟨-, h⟩
  · exact .inr (.inl ⟨hc, (Except.ok.inj h).symm⟩)
  rcases ite_answers h with ⟨hc, h⟩ | ⟨-, h⟩
  · exact .inr (.inr (.inl ⟨hc, (Except.ok.inj h).symm⟩))
  rcases ite_answers h with ⟨hc, h⟩ | ⟨-, h⟩
  · exact .inr (.inr (.inr (.inl ⟨hc, (Except.ok.inj h).symm⟩)))
  rcases ite_answers h with ⟨hc, h⟩ | ⟨-, h⟩
  · exact .inr (.inr (.inr (.inr (.inl ⟨hc, (Except.ok.inj h).symm⟩))))
  rcases ite_answers h with ⟨hc, h⟩ | ⟨-, h⟩
  · exact .inr (.inr (.inr (.inr (.inr (.inl ⟨hc, (Except.ok.inj h).symm⟩)))))
  rcases ite_answers h with ⟨hc, h⟩ | ⟨-, h⟩
  · exact .inr (.inr (.inr (.inr (.inr (.inr (.inl ⟨hc.1, hc.2, (Except.ok.inj h).symm⟩))))))
  rcases ite_answers h with ⟨hc, h⟩ | ⟨-, h⟩
  · exact .inr (.inr (.inr (.inr (.inr (.inr (.inr (⟨hc.1, hc.2, (Except.ok.inj h).symm⟩)))))))
  cases h

/-- Opcode 0x03: the three loads. -/
theorem decodeLoad_cases (h : decodeLoad f = .ok i) :
    (f.funct3 = 0#3 ∧ i = .lb f.rd f.rs1 (f.immLow 12)) ∨
    (f.funct3 = 1#3 ∧ i = .lh f.rd f.rs1 (f.immLow 12)) ∨
    (f.funct3 = 2#3 ∧ i = .lw f.rd f.rs1 (f.immLow 12)) := by
  unfold decodeLoad at h
  rcases ite_answers h with ⟨hc, h⟩ | ⟨-, h⟩
  · exact .inl ⟨hc, (Except.ok.inj h).symm⟩
  rcases ite_answers h with ⟨hc, h⟩ | ⟨-, h⟩
  · exact .inr (.inl ⟨hc, (Except.ok.inj h).symm⟩)
  rcases ite_answers h with ⟨hc, h⟩ | ⟨-, h⟩
  · exact .inr (.inr (⟨hc, (Except.ok.inj h).symm⟩))
  cases h

/-- Opcode 0x23: the three stores. -/
theorem decodeStore_cases (h : decodeStore f = .ok i) :
    (f.funct3 = 0#3 ∧ i = .sb f.rs2 f.rs1 (f.immLow 12)) ∨
    (f.funct3 = 1#3 ∧ i = .sh f.rs2 f.rs1 (f.immLow 12)) ∨
    (f.funct3 = 2#3 ∧ i = .sw f.rs2 f.rs1 (f.immLow 12)) := by
  unfold decodeStore at h
  rcases ite_answers h with ⟨hc, h⟩ | ⟨-, h⟩
  · exact .inl ⟨hc, (Except.ok.inj h).symm⟩
  rcases ite_answers h with ⟨hc, h⟩ | ⟨-, h⟩
  · exact .inr (.inl ⟨hc, (Except.ok.inj h).symm⟩)
  rcases ite_answers h with ⟨hc, h⟩ | ⟨-, h⟩
  · exact .inr (.inr (⟨hc, (Except.ok.inj h).symm⟩))
  cases h

/-- Opcode 0x63: the four branches. -/
theorem decodeBranch_cases (h : decodeBranch f = .ok i) :
    (f.funct3 = 0#3 ∧ i = .beq f.rs1 f.rs2 (f.immLow 13)) ∨
    (f.funct3 = 1#3 ∧ i = .bne f.rs1 f.rs2 (f.immLow 13)) ∨
    (f.funct3 = 4#3 ∧ i = .blt f.rs1 f.rs2 (f.immLow 13)) ∨
    (f.funct3 = 5#3 ∧ i = .bge f.rs1 f.rs2 (f.immLow 13)) := by
  unfold decodeBranch at h
  rcases ite_answers h with ⟨hc, h⟩ | ⟨-, h⟩
  · exact .inl ⟨hc, (Except.ok.inj h).symm⟩
  rcases ite_answers h with ⟨hc, h⟩ | ⟨-, h⟩
  · exact .inr (.inl ⟨hc, (Except.ok.inj h).symm⟩)
  rcases ite_answers h with ⟨hc, h⟩ | ⟨-, h⟩
  · exact .inr (.inr (.inl ⟨hc, (Except.ok.inj h).symm⟩))
  rcases ite_answers h with ⟨hc, h⟩ | ⟨-, h⟩
  · exact .inr (.inr (.inr (⟨hc, (Except.ok.inj h).symm⟩)))
  cases h

end DecodeCases

end Sys2Proof
end

