-- ==== Sys2Proof/Laws/State.lean ====
section
/-! SUPPORT. One lemma per field per update, so that no later proof unfolds a record update. -/

namespace Sys2Proof.Machine

variable (s : State)

/-! ### setPc -/

@[simp] theorem State.setPc_x (t : Word) : (s.setPc t).x = s.x := rfl
@[simp] theorem State.setPc_pc (t : Word) : (s.setPc t).pc = t := rfl
@[simp] theorem State.setPc_im (t : Word) : (s.setPc t).im = s.im := rfl
@[simp] theorem State.setPc_dm (t : Word) : (s.setPc t).dm = s.dm := rfl
@[simp] theorem State.setPc_sm (t : Word) : (s.setPc t).sm = s.sm := rfl
@[simp] theorem State.setPc_halted (t : Word) : (s.setPc t).halted = s.halted := rfl
@[simp] theorem State.setPc_haltCause (t : Word) : (s.setPc t).haltCause = s.haltCause := rfl
@[simp] theorem State.setPc_errMemRegion (t : Word) : (s.setPc t).errMemRegion = s.errMemRegion := rfl
@[simp] theorem State.setPc_errPulse (t : Word) : (s.setPc t).errPulse = s.errPulse := rfl
@[simp] theorem State.setPc_retired (t : Word) : (s.setPc t).retired = s.retired := rfl
@[simp] theorem State.setPc_draws (t : Word) : (s.setPc t).draws = s.draws := rfl

/-! ### advance -/

@[simp] theorem State.advance_x : (s.advance).x = s.x := rfl
@[simp] theorem State.advance_pc : (s.advance).pc = s.pcPlus4 := rfl
@[simp] theorem State.advance_im : (s.advance).im = s.im := rfl
@[simp] theorem State.advance_dm : (s.advance).dm = s.dm := rfl
@[simp] theorem State.advance_sm : (s.advance).sm = s.sm := rfl
@[simp] theorem State.advance_halted : (s.advance).halted = s.halted := rfl
@[simp] theorem State.advance_haltCause : (s.advance).haltCause = s.haltCause := rfl
@[simp] theorem State.advance_errMemRegion : (s.advance).errMemRegion = s.errMemRegion := rfl
@[simp] theorem State.advance_errPulse : (s.advance).errPulse = s.errPulse := rfl
@[simp] theorem State.advance_retired : (s.advance).retired = s.retired := rfl
@[simp] theorem State.advance_draws : (s.advance).draws = s.draws := rfl

/-! ### reportMemRegion -/

@[simp] theorem State.reportMemRegion_x : (s.reportMemRegion).x = s.x := rfl
@[simp] theorem State.reportMemRegion_pc : (s.reportMemRegion).pc = s.pc := rfl
@[simp] theorem State.reportMemRegion_im : (s.reportMemRegion).im = s.im := rfl
@[simp] theorem State.reportMemRegion_dm : (s.reportMemRegion).dm = s.dm := rfl
@[simp] theorem State.reportMemRegion_sm : (s.reportMemRegion).sm = s.sm := rfl
@[simp] theorem State.reportMemRegion_halted : (s.reportMemRegion).halted = s.halted := rfl
@[simp] theorem State.reportMemRegion_haltCause : (s.reportMemRegion).haltCause = s.haltCause := rfl
@[simp] theorem State.reportMemRegion_errMemRegion : (s.reportMemRegion).errMemRegion = true := rfl
@[simp] theorem State.reportMemRegion_errPulse : (s.reportMemRegion).errPulse = true := rfl
@[simp] theorem State.reportMemRegion_retired : (s.reportMemRegion).retired = s.retired := rfl
@[simp] theorem State.reportMemRegion_draws : (s.reportMemRegion).draws = s.draws := rfl

/-! ### countDraw -/

@[simp] theorem State.countDraw_x : (s.countDraw).x = s.x := rfl
@[simp] theorem State.countDraw_pc : (s.countDraw).pc = s.pc := rfl
@[simp] theorem State.countDraw_im : (s.countDraw).im = s.im := rfl
@[simp] theorem State.countDraw_dm : (s.countDraw).dm = s.dm := rfl
@[simp] theorem State.countDraw_sm : (s.countDraw).sm = s.sm := rfl
@[simp] theorem State.countDraw_halted : (s.countDraw).halted = s.halted := rfl
@[simp] theorem State.countDraw_haltCause : (s.countDraw).haltCause = s.haltCause := rfl
@[simp] theorem State.countDraw_errMemRegion : (s.countDraw).errMemRegion = s.errMemRegion := rfl
@[simp] theorem State.countDraw_errPulse : (s.countDraw).errPulse = s.errPulse := rfl
@[simp] theorem State.countDraw_retired : (s.countDraw).retired = s.retired := rfl
@[simp] theorem State.countDraw_draws : (s.countDraw).draws = s.draws + 1 := rfl

/-! ### halt -/

@[simp] theorem State.halt_x (c : HaltCause) : (s.halt c).x = s.x := rfl
@[simp] theorem State.halt_pc (c : HaltCause) : (s.halt c).pc = s.pc := rfl
@[simp] theorem State.halt_im (c : HaltCause) : (s.halt c).im = s.im := rfl
@[simp] theorem State.halt_dm (c : HaltCause) : (s.halt c).dm = s.dm := rfl
@[simp] theorem State.halt_sm (c : HaltCause) : (s.halt c).sm = s.sm := rfl
@[simp] theorem State.halt_halted (c : HaltCause) : (s.halt c).halted = true := rfl
@[simp] theorem State.halt_haltCause (c : HaltCause) : (s.halt c).haltCause = c := rfl
@[simp] theorem State.halt_errMemRegion (c : HaltCause) : (s.halt c).errMemRegion = s.errMemRegion := rfl
@[simp] theorem State.halt_errPulse (c : HaltCause) : (s.halt c).errPulse = s.errPulse := rfl
@[simp] theorem State.halt_retired (c : HaltCause) : (s.halt c).retired = s.retired := rfl
@[simp] theorem State.halt_draws (c : HaltCause) : (s.halt c).draws = s.draws := rfl

/-! ### beginCycle -/

@[simp] theorem State.beginCycle_x : (s.beginCycle).x = s.x := rfl
@[simp] theorem State.beginCycle_pc : (s.beginCycle).pc = s.pc := rfl
@[simp] theorem State.beginCycle_im : (s.beginCycle).im = s.im := rfl
@[simp] theorem State.beginCycle_dm : (s.beginCycle).dm = s.dm := rfl
@[simp] theorem State.beginCycle_sm : (s.beginCycle).sm = s.sm := rfl
@[simp] theorem State.beginCycle_halted : (s.beginCycle).halted = s.halted := rfl
@[simp] theorem State.beginCycle_haltCause : (s.beginCycle).haltCause = s.haltCause := rfl
@[simp] theorem State.beginCycle_errMemRegion : (s.beginCycle).errMemRegion = s.errMemRegion := rfl
@[simp] theorem State.beginCycle_errPulse : (s.beginCycle).errPulse = false := rfl
@[simp] theorem State.beginCycle_retired : (s.beginCycle).retired = s.retired := rfl
@[simp] theorem State.beginCycle_draws : (s.beginCycle).draws = s.draws := rfl

/-! ### retire -/

@[simp] theorem State.retire_x : (s.retire).x = s.x := rfl
@[simp] theorem State.retire_pc : (s.retire).pc = s.pc := rfl
@[simp] theorem State.retire_im : (s.retire).im = s.im := rfl
@[simp] theorem State.retire_dm : (s.retire).dm = s.dm := rfl
@[simp] theorem State.retire_sm : (s.retire).sm = s.sm := rfl
@[simp] theorem State.retire_halted : (s.retire).halted = s.halted := rfl
@[simp] theorem State.retire_haltCause : (s.retire).haltCause = s.haltCause := rfl
@[simp] theorem State.retire_errMemRegion : (s.retire).errMemRegion = s.errMemRegion := rfl
@[simp] theorem State.retire_errPulse : (s.retire).errPulse = s.errPulse := rfl
@[simp] theorem State.retire_retired : (s.retire).retired = s.retired + 1 := rfl
@[simp] theorem State.retire_draws : (s.retire).draws = s.draws := rfl

/-! ### writeReg, writeByte, writeLE: every field but the one written -/

@[simp] theorem State.writeReg_pc (r : RegIdx) (v : Word) : (s.writeReg r v).pc = s.pc := by
  unfold State.writeReg; split <;> rfl
@[simp] theorem State.writeReg_im (r : RegIdx) (v : Word) : (s.writeReg r v).im = s.im := by
  unfold State.writeReg; split <;> rfl
@[simp] theorem State.writeReg_dm (r : RegIdx) (v : Word) : (s.writeReg r v).dm = s.dm := by
  unfold State.writeReg; split <;> rfl
@[simp] theorem State.writeReg_sm (r : RegIdx) (v : Word) : (s.writeReg r v).sm = s.sm := by
  unfold State.writeReg; split <;> rfl
@[simp] theorem State.writeReg_halted (r : RegIdx) (v : Word) : (s.writeReg r v).halted = s.halted := by
  unfold State.writeReg; split <;> rfl
@[simp] theorem State.writeReg_haltCause (r : RegIdx) (v : Word) : (s.writeReg r v).haltCause = s.haltCause := by
  unfold State.writeReg; split <;> rfl
@[simp] theorem State.writeReg_errMemRegion (r : RegIdx) (v : Word) : (s.writeReg r v).errMemRegion = s.errMemRegion := by
  unfold State.writeReg; split <;> rfl
@[simp] theorem State.writeReg_errPulse (r : RegIdx) (v : Word) : (s.writeReg r v).errPulse = s.errPulse := by
  unfold State.writeReg; split <;> rfl
@[simp] theorem State.writeReg_retired (r : RegIdx) (v : Word) : (s.writeReg r v).retired = s.retired := by
  unfold State.writeReg; split <;> rfl
@[simp] theorem State.writeReg_draws (r : RegIdx) (v : Word) : (s.writeReg r v).draws = s.draws := by
  unfold State.writeReg; split <;> rfl
@[simp] theorem State.writeByte_x (a : Nat) (b : Byte) : (s.writeByte a b).x = s.x := by
  unfold State.writeByte; split <;> rfl
@[simp] theorem State.writeByte_pc (a : Nat) (b : Byte) : (s.writeByte a b).pc = s.pc := by
  unfold State.writeByte; split <;> rfl
@[simp] theorem State.writeByte_im (a : Nat) (b : Byte) : (s.writeByte a b).im = s.im := by
  unfold State.writeByte; split <;> rfl
@[simp] theorem State.writeByte_halted (a : Nat) (b : Byte) : (s.writeByte a b).halted = s.halted := by
  unfold State.writeByte; split <;> rfl
@[simp] theorem State.writeByte_haltCause (a : Nat) (b : Byte) : (s.writeByte a b).haltCause = s.haltCause := by
  unfold State.writeByte; split <;> rfl
@[simp] theorem State.writeByte_errMemRegion (a : Nat) (b : Byte) : (s.writeByte a b).errMemRegion = s.errMemRegion := by
  unfold State.writeByte; split <;> rfl
@[simp] theorem State.writeByte_errPulse (a : Nat) (b : Byte) : (s.writeByte a b).errPulse = s.errPulse := by
  unfold State.writeByte; split <;> rfl
@[simp] theorem State.writeByte_retired (a : Nat) (b : Byte) : (s.writeByte a b).retired = s.retired := by
  unfold State.writeByte; split <;> rfl
@[simp] theorem State.writeByte_draws (a : Nat) (b : Byte) : (s.writeByte a b).draws = s.draws := by
  unfold State.writeByte; split <;> rfl
@[simp] theorem State.writeLE_x (a : Nat) (v : Word) (n : Nat) : (s.writeLE a v n).x = s.x := by
  induction n with
  | zero => rfl
  | succ n ih => simp [State.writeLE, ih]
@[simp] theorem State.writeLE_pc (a : Nat) (v : Word) (n : Nat) : (s.writeLE a v n).pc = s.pc := by
  induction n with
  | zero => rfl
  | succ n ih => simp [State.writeLE, ih]
@[simp] theorem State.writeLE_im (a : Nat) (v : Word) (n : Nat) : (s.writeLE a v n).im = s.im := by
  induction n with
  | zero => rfl
  | succ n ih => simp [State.writeLE, ih]
@[simp] theorem State.writeLE_halted (a : Nat) (v : Word) (n : Nat) : (s.writeLE a v n).halted = s.halted := by
  induction n with
  | zero => rfl
  | succ n ih => simp [State.writeLE, ih]
@[simp] theorem State.writeLE_haltCause (a : Nat) (v : Word) (n : Nat) : (s.writeLE a v n).haltCause = s.haltCause := by
  induction n with
  | zero => rfl
  | succ n ih => simp [State.writeLE, ih]
@[simp] theorem State.writeLE_errMemRegion (a : Nat) (v : Word) (n : Nat) : (s.writeLE a v n).errMemRegion = s.errMemRegion := by
  induction n with
  | zero => rfl
  | succ n ih => simp [State.writeLE, ih]
@[simp] theorem State.writeLE_errPulse (a : Nat) (v : Word) (n : Nat) : (s.writeLE a v n).errPulse = s.errPulse := by
  induction n with
  | zero => rfl
  | succ n ih => simp [State.writeLE, ih]
@[simp] theorem State.writeLE_retired (a : Nat) (v : Word) (n : Nat) : (s.writeLE a v n).retired = s.retired := by
  induction n with
  | zero => rfl
  | succ n ih => simp [State.writeLE, ih]
@[simp] theorem State.writeLE_draws (a : Nat) (v : Word) (n : Nat) : (s.writeLE a v n).draws = s.draws := by
  induction n with
  | zero => rfl
  | succ n ih => simp [State.writeLE, ih]

end Sys2Proof.Machine
end

