-- ==== Sys2Proof/Laws/Registers.lean ====
section
/-! SUPPORT. Reading a register after every update. -/

namespace Sys2Proof.Machine

variable (s : State)

@[simp] theorem State.readReg_zero : s.readReg 0#5 = 0#32 := by simp [State.readReg]

@[simp] theorem State.writeReg_zero (v : Word) : s.writeReg 0#5 v = s := by simp [State.writeReg]

/-- Two states with the same register file read the same. -/
theorem State.readReg_congr {s t : State} (h : t.x = s.x) (r : RegIdx) : t.readReg r = s.readReg r := by
  simp only [State.readReg, h]

/-- What a register reads after a write (10_state.md R22). -/
theorem State.readReg_writeReg (r q : RegIdx) (v : Word) :
    (s.writeReg r v).readReg q = if q = r then (if r = 0#5 then 0#32 else v) else s.readReg q := by
  unfold State.writeReg State.readReg
  by_cases hr : r = 0#5
  · subst hr; by_cases hq : q = 0#5 <;> simp [hq]
  · by_cases hq : q = r
    · subst hq; simp [hr]
    · have : r.toNat ≠ q.toNat := fun h => hq (BitVec.eq_of_toNat_eq h.symm)
      simp [hr, hq, this]

theorem State.readReg_writeReg_same (r : RegIdx) (v : Word) : (s.writeReg r v).readReg r = if r = 0#5 then 0#32 else v := by
  simp [State.readReg_writeReg]

theorem State.readReg_writeReg_ne {r q : RegIdx} (h : q ≠ r) (v : Word) : (s.writeReg r v).readReg q = s.readReg q := by
  simp [State.readReg_writeReg, h]

@[simp] theorem State.readReg_setPc (t : Word) (r : RegIdx) : (s.setPc t).readReg r = s.readReg r := rfl
@[simp] theorem State.readReg_advance (r : RegIdx) : s.advance.readReg r = s.readReg r := rfl
@[simp] theorem State.readReg_reportMemRegion (r : RegIdx) : s.reportMemRegion.readReg r = s.readReg r := rfl
@[simp] theorem State.readReg_countDraw (r : RegIdx) : s.countDraw.readReg r = s.readReg r := rfl
@[simp] theorem State.readReg_halt (c : HaltCause) (r : RegIdx) : (s.halt c).readReg r = s.readReg r := rfl
@[simp] theorem State.readReg_beginCycle (r : RegIdx) : s.beginCycle.readReg r = s.readReg r := rfl
@[simp] theorem State.readReg_retire (r : RegIdx) : s.retire.readReg r = s.readReg r := rfl

@[simp] theorem State.readReg_writeByte (a : Nat) (b : Byte) (r : RegIdx) : (s.writeByte a b).readReg r = s.readReg r :=
  State.readReg_congr (by simp) r

@[simp] theorem State.readReg_writeLE (a : Nat) (v : Word) (n : Nat) (r : RegIdx) :
    (s.writeLE a v n).readReg r = s.readReg r :=
  State.readReg_congr (by simp) r

/-- A write leaves the stored zero of register 0 in place (40_cycle.md R117, invariant 1). -/
theorem State.writeReg_x_zero (r : RegIdx) (v : Word) : (s.writeReg r v).x[0] = s.x[0] := by
  unfold State.writeReg
  split
  · rfl
  · rename_i h
    have : r.toNat ≠ 0 := fun h0 => h (BitVec.eq_of_toNat_eq (by simpa using h0))
    simp [this]

end Sys2Proof.Machine
end

