-- ==== Sys2Proof/Laws/Memory.lean ====
section
/-! SUPPORT. The laws of the memories: read after write, every other address, and that each write keeps the canonical form. -/

namespace Sys2Proof.Machine

/-! ## Lists of cells in rising order -/

/-- The keys rise strictly. -/
theorem Memory.pairwise_insertCell {m : Memory} {a : Nat} (b : Byte) (h : m.Pairwise (fun p q => p.1 < q.1))
    (hne : ∀ c ∈ m, c.1 ≠ a) : (Memory.insertCell m a b).Pairwise (fun p q => p.1 < q.1) := by
  induction m with
  | nil => simp [Memory.insertCell]
  | cons c rest ih =>
    obtain ⟨k, v⟩ := c
    have hrest := List.pairwise_cons.1 h
    unfold Memory.insertCell
    split
    · rename_i hlt
      refine List.pairwise_cons.2 ⟨?_, h⟩
      intro q hq
      rcases List.mem_cons.1 hq with rfl | hq
      · exact hlt
      · exact Nat.lt_trans hlt (hrest.1 q hq)
    · rename_i hge
      refine List.pairwise_cons.2 ⟨?_, ih hrest.2 fun c hc => hne c (List.mem_cons_of_mem _ hc)⟩
      intro q hq
      have hmem : ∀ (l : Memory), q ∈ Memory.insertCell l a b → q = (a, b) ∨ q ∈ l := by
        intro l
        induction l with
        | nil => simp [Memory.insertCell]
        | cons d l ihl =>
          obtain ⟨j, w⟩ := d
          unfold Memory.insertCell
          split <;> simp only [List.mem_cons] <;> tauto
      rcases hmem rest hq with rfl | hq
      · have := hne (k, v) (by simp)
        simp only at this hge ⊢
        omega
      · exact hrest.1 q hq

theorem Memory.mem_insertCell {m : Memory} {a : Nat} {b : Byte} {c : Host.Cell} :
    c ∈ Memory.insertCell m a b ↔ c = (a, b) ∨ c ∈ m := by
  induction m with
  | nil => simp [Memory.insertCell]
  | cons d rest ih =>
    obtain ⟨k, v⟩ := d
    unfold Memory.insertCell
    split <;> simp only [List.mem_cons, ih] <;> tauto

theorem Memory.mem_clear {m : Memory} {a : Nat} {c : Host.Cell} : c ∈ Memory.clear m a ↔ c ∈ m ∧ c.1 ≠ a := by
  simp [Memory.clear]

/-- The cells of a memory after a write: the new cell, or a cell that was there at another address. -/
theorem Memory.mem_write {m : Memory} {a : Nat} {b : Byte} {c : Host.Cell} (h : c ∈ Memory.write m a b) :
    c = (a, b) ∨ c ∈ m := by
  unfold Memory.write at h
  split at h
  · exact .inr (Memory.mem_clear.1 h).1
  · exact (Memory.mem_insertCell.1 h).imp id fun h => (Memory.mem_clear.1 h).1

/-- A write keeps the canonical form. -/
theorem Memory.wf_write {m : Memory} (h : Memory.wf m) (a : Nat) (b : Byte) : Memory.wf (Memory.write m a b) := by
  have hc : (Memory.clear m a).Pairwise (fun p q => p.1 < q.1) := h.1.sublist List.filter_sublist
  refine ⟨?_, ?_⟩
  · unfold Memory.write
    split
    · exact hc
    · exact Memory.pairwise_insertCell b hc fun c hc => (Memory.mem_clear.1 hc).2
  · intro c hc
    unfold Memory.write at hc
    split at hc
    · exact h.2 c (Memory.mem_clear.1 hc).1
    · rename_i hb
      rcases Memory.mem_insertCell.1 hc with rfl | hc
      · exact hb
      · exact h.2 c (Memory.mem_clear.1 hc).1

/-! ## Reading -/

/-- An address that no cell names reads as unlisted (20_memory.md R44). -/
theorem Memory.read_of_not_listed {m : Memory} {a : Nat} (h : ∀ c ∈ m, c.1 ≠ a) : Memory.read m a = Memory.unlisted := by
  induction m with
  | nil => rfl
  | cons c rest ih =>
    obtain ⟨k, v⟩ := c
    have hk : k ≠ a := h (k, v) (by simp)
    simp only [Memory.read, hk, if_false]
    exact ih fun c hc => h c (List.mem_cons_of_mem _ hc)

theorem Memory.read_clear (m : Memory) (a a' : Nat) :
    Memory.read (Memory.clear m a) a' = if a' = a then Memory.unlisted else Memory.read m a' := by
  induction m with
  | nil => simp [Memory.clear, Memory.read]
  | cons c rest ih =>
    obtain ⟨k, v⟩ := c
    have ih' : Memory.read (List.filter (fun c => c.1 != a) rest) a' =
        if a' = a then Memory.unlisted else Memory.read rest a' := ih
    by_cases hk : k = a
    · subst hk
      by_cases ha : a' = k
      · subst ha; simpa [Memory.clear, Memory.read] using ih'
      · have : k ≠ a' := fun h => ha h.symm
        simpa [Memory.clear, Memory.read, ha, this] using ih'
    · by_cases ha : k = a'
      · subst ha; simp [Memory.clear, Memory.read, hk]
      · simpa [Memory.clear, Memory.read, hk, ha] using ih'

theorem Memory.read_insertCell {m : Memory} {a : Nat} (b : Byte) (h : ∀ c ∈ m, c.1 ≠ a) (a' : Nat) :
    Memory.read (Memory.insertCell m a b) a' = if a' = a then b else Memory.read m a' := by
  induction m with
  | nil => simp only [Memory.insertCell, Memory.read, eq_comm]
  | cons c rest ih =>
    obtain ⟨k, v⟩ := c
    have hk : k ≠ a := h (k, v) (by simp)
    have ih' := ih fun c hc => h c (List.mem_cons_of_mem _ hc)
    unfold Memory.insertCell
    split
    · by_cases ha : a' = a
      · simp [Memory.read, ha]
      · have : a ≠ a' := fun h => ha h.symm
        simp [Memory.read, ha, this]
    · by_cases ha : k = a'
      · subst ha; simp [Memory.read, hk]
      · simp [Memory.read, ha, ih']

/-- Read after write: the byte written at its address, every other address as before. -/
theorem Memory.read_write (m : Memory) (a : Nat) (b : Byte) (a' : Nat) :
    Memory.read (Memory.write m a b) a' = if a' = a then b else Memory.read m a' := by
  unfold Memory.write
  split
  · rename_i hb; rw [Memory.read_clear, hb]
  · rw [Memory.read_insertCell b fun c hc => (Memory.mem_clear.1 hc).2]
    by_cases ha : a' = a
    · simp [ha]
    · simp [ha, Memory.read_clear]

/-! ## Segments (20_memory.md R41) -/

theorem segmentOf_instruction {a : Nat} : segmentOf a = .instruction ↔ a < 0x10000000 := by
  unfold segmentOf dataBase stackBase
  by_cases h : a < 0x10000000
  · simp [h]
  · by_cases h2 : a < 0x50000000 <;> simp [h, h2]

theorem segmentOf_data {a : Nat} : segmentOf a = .data ↔ 0x10000000 ≤ a ∧ a < 0x50000000 := by
  unfold segmentOf dataBase stackBase
  by_cases h : a < 0x10000000
  · simp [h]
  · by_cases h2 : a < 0x50000000 <;> simp [h, h2]; omega

theorem segmentOf_stack {a : Nat} : segmentOf a = .stack ↔ 0x50000000 ≤ a := by
  unfold segmentOf dataBase stackBase
  by_cases h : a < 0x10000000
  · simp [h]; omega
  · by_cases h2 : a < 0x50000000 <;> simp [h, h2]; omega

/-! ## The bytes of a state -/

variable (s : State)

/-- Two states with the same data memories read the same bytes. -/
theorem State.byteAt_congr {s t : State} (hd : t.dm = s.dm) (hs : t.sm = s.sm) (a : Nat) : t.byteAt a = s.byteAt a := by
  simp only [State.byteAt, hd, hs]

@[simp] theorem State.byteAt_setPc (t : Word) (a : Nat) : (s.setPc t).byteAt a = s.byteAt a := rfl
@[simp] theorem State.byteAt_advance (a : Nat) : s.advance.byteAt a = s.byteAt a := rfl
@[simp] theorem State.byteAt_reportMemRegion (a : Nat) : s.reportMemRegion.byteAt a = s.byteAt a := rfl
@[simp] theorem State.byteAt_countDraw (a : Nat) : s.countDraw.byteAt a = s.byteAt a := rfl
@[simp] theorem State.byteAt_halt (c : HaltCause) (a : Nat) : (s.halt c).byteAt a = s.byteAt a := rfl
@[simp] theorem State.byteAt_beginCycle (a : Nat) : s.beginCycle.byteAt a = s.byteAt a := rfl
@[simp] theorem State.byteAt_retire (a : Nat) : s.retire.byteAt a = s.byteAt a := rfl
@[simp] theorem State.byteAt_writeReg (r : RegIdx) (v : Word) (a : Nat) : (s.writeReg r v).byteAt a = s.byteAt a :=
  State.byteAt_congr (by simp) (by simp) a

theorem State.byteAt_writeByte (a : Nat) (b : Byte) (a' : Nat) :
    (s.writeByte a b).byteAt a' = if a' = a then b else s.byteAt a' := by
  by_cases ha : a' = a
  · subst ha
    simp only [State.writeByte, State.byteAt, if_true]
    cases segmentOf a' <;> simp [Memory.read_write]
  · simp only [State.writeByte, State.byteAt]
    cases segmentOf a <;> cases segmentOf a' <;> simp [Memory.read_write, ha]

/-- A little-endian write leaves every byte outside the access. -/
theorem State.byteAt_writeLE_outside (a : Nat) (v : Word) (n a' : Nat) (h : a' < a ∨ a + n ≤ a') :
    (s.writeLE a v n).byteAt a' = s.byteAt a' := by
  induction n with
  | zero => rfl
  | succ n ih =>
    have hne : a' ≠ a + n := by omega
    simp only [State.writeLE, State.byteAt_writeByte, hne, if_false]
    exact ih (by omega)

/-- Byte `k` of a little-endian write is bits `8k+7..8k` of the value (20_memory.md R51). -/
theorem State.byteAt_writeLE_inside (a : Nat) (v : Word) (n k : Nat) (h : k < n) :
    (s.writeLE a v n).byteAt (a + k) = v.extractLsb' (8 * k) 8 := by
  induction n with
  | zero => omega
  | succ n ih =>
    by_cases hk : k = n
    · subst hk; simp [State.writeLE, State.byteAt_writeByte]
    · have hne : a + k ≠ a + n := by omega
      simp only [State.writeLE, State.byteAt_writeByte, hne, if_false]
      exact ih (by omega)

/-! ## The value of a load, width by width (20_memory.md R48, 44_load.md R150) -/

theorem State.signExtend_readLE_byte (a : Nat) :
    (s.readLE a .byte).signExtend 32 = BitVec.signExtend 32 (s.byteAt a) := rfl

theorem State.signExtend_readLE_half (a : Nat) :
    (s.readLE a .half).signExtend 32 = BitVec.signExtend 32 (s.byteAt (a + 1) ++ s.byteAt a : BitVec (8 + 8)) := rfl

theorem State.signExtend_readLE_word (a : Nat) :
    (s.readLE a .word).signExtend 32 =
      (s.byteAt (a + 3) ++ s.byteAt (a + 2) ++ s.byteAt (a + 1) ++ s.byteAt a : BitVec (8 + 8 + 8 + 8)) :=
  BitVec.signExtend_eq _

/-! ## The instruction memory -/

theorem InstrMem.mem_write {m : InstrMem} {a : Nat} {w : Word} {c : Nat × Word} (h : c ∈ InstrMem.write m a w) :
    c = (a, w) ∨ c ∈ m := by
  induction m with
  | nil => simpa [InstrMem.write] using h
  | cons d rest ih =>
    obtain ⟨k, v⟩ := d
    unfold InstrMem.write at h
    split at h
    · simpa using h
    · split at h
      · rcases List.mem_cons.1 h with rfl | h
        · exact .inl rfl
        · exact .inr (List.mem_cons_of_mem _ h)
      · rcases List.mem_cons.1 h with rfl | h
        · exact .inr (by simp)
        · exact (ih h).imp id (List.mem_cons_of_mem _)

/-- A write keeps the canonical form. -/
theorem InstrMem.wf_write {m : InstrMem} (h : InstrMem.wf m) (a : Nat) (w : Word) : InstrMem.wf (InstrMem.write m a w) := by
  induction m with
  | nil => simp [InstrMem.write, InstrMem.wf]
  | cons d rest ih =>
    obtain ⟨k, v⟩ := d
    have hr := List.pairwise_cons.1 h
    unfold InstrMem.write
    split
    · rename_i hlt
      refine List.pairwise_cons.2 ⟨?_, h⟩
      intro q hq
      rcases List.mem_cons.1 hq with rfl | hq
      · exact hlt
      · exact Nat.lt_trans hlt (hr.1 q hq)
    · split
      · rename_i heq
        subst heq
        exact List.pairwise_cons.2 ⟨hr.1, hr.2⟩
      · refine List.pairwise_cons.2 ⟨?_, ih hr.2⟩
        intro q hq
        rcases InstrMem.mem_write hq with rfl | hq
        · simp only at *; omega
        · exact hr.1 q hq

/-- Read after write in the instruction memory. -/
theorem InstrMem.read_write (m : InstrMem) (a : Nat) (w : Word) (a' : Nat) :
    InstrMem.read (InstrMem.write m a w) a' = if a' = a then some w else InstrMem.read m a' := by
  induction m with
  | nil => simp only [InstrMem.write, InstrMem.read, eq_comm]
  | cons d rest ih =>
    obtain ⟨k, v⟩ := d
    unfold InstrMem.write
    split
    · by_cases h : a' = a
      · simp [InstrMem.read, h]
      · have : a ≠ a' := fun e => h e.symm
        simp [InstrMem.read, h, this]
    · split
      · rename_i heq
        subst heq
        by_cases h : a' = a
        · simp [InstrMem.read, h]
        · have : a ≠ a' := fun e => h e.symm
          simp [InstrMem.read, h, this]
      · rename_i hne
        by_cases h : k = a'
        · subst h
          have : k ≠ a := fun e => hne e.symm
          simp [InstrMem.read, this]
        · simp [InstrMem.read, h, ih]

/-- In a canonical instruction memory the word read is the one entry at the address. -/
theorem InstrMem.read_eq_some_iff {m : InstrMem} (h : InstrMem.wf m) (a : Nat) (w : Word) :
    InstrMem.read m a = some w ↔ (a, w) ∈ m := by
  induction m with
  | nil => simp [InstrMem.read]
  | cons d rest ih =>
    obtain ⟨k, v⟩ := d
    have hr := List.pairwise_cons.1 h
    by_cases hk : k = a
    · subst hk
      have : (k, w) ∉ rest := fun hu => Nat.lt_irrefl k (hr.1 _ hu)
      simp [InstrMem.read, this, eq_comm]
    · have : ¬a = k := fun e => hk e.symm
      simp [InstrMem.read, hk, this, ih hr.2]

end Sys2Proof.Machine
end

