-- ==== Sys2Proof/Laws/Exec.lean ====
section
/-! SUPPORT. One lemma per shared operation, saying once what it does, and the shape of what `exec` answers. -/

namespace Sys2Proof.Machine

variable (s : State)

@[simp] theorem State.pcPlus4_writeReg (r : RegIdx) (v : Word) : (s.writeReg r v).pcPlus4 = s.pcPlus4 := by
  simp [State.pcPlus4]
@[simp] theorem State.pcPlus4_reportMemRegion : s.reportMemRegion.pcPlus4 = s.pcPlus4 := rfl
@[simp] theorem State.pcPlus4_writeLE (a : Nat) (v : Word) (n : Nat) : (s.writeLE a v n).pcPlus4 = s.pcPlus4 := by
  simp [State.pcPlus4]

/-! ## The address test (20_memory.md R50, R51) -/

theorem accessRefused_eq_false {addr : Word} {n : Nat} :
    accessRefused addr n = false ↔ 0x10000000 ≤ addr.toNat ∧ addr.toNat + n ≤ 2 ^ 32 := by
  rw [accessRefused, Bool.or_eq_false_iff, decide_eq_false_iff_not, decide_eq_false_iff_not, Nat.not_lt, Nat.not_lt]
  rfl

theorem accessRefused_eq_true {addr : Word} {n : Nat} :
    accessRefused addr n = true ↔ ¬(0x10000000 ≤ addr.toNat ∧ addr.toNat + n ≤ 2 ^ 32) := by
  rw [← accessRefused_eq_false]; simp

/-! ## Results and moves of the pc -/

theorem State.readReg_writeResult (rd r : RegIdx) (v : Word) :
    (s.writeResult rd v).readReg r = if r = rd then (if rd = 0#5 then 0#32 else v) else s.readReg r := by
  simp [State.writeResult, State.readReg_writeReg]

@[simp] theorem State.writeResult_pc (rd : RegIdx) (v : Word) : (s.writeResult rd v).pc = s.pc + 4#32 := by
  simp [State.writeResult, State.pcPlus4]

theorem State.readReg_jump (rd r : RegIdx) (target : Word) :
    (s.jump rd target).readReg r = if r = rd then (if rd = 0#5 then 0#32 else s.pc + 4#32) else s.readReg r := by
  simp [State.jump, State.readReg_writeReg, State.pcPlus4]

/-! ## Loads and stores -/

/-- A load at an accessible address. -/
theorem State.load_of_accessible {w : Width} {rd rs1 : RegIdx} {imm : BitVec 12}
    (h : accessRefused (s.effAddr rs1 imm) w.bytes = false) :
    s.load w rd rs1 imm = s.writeResult rd ((s.readLE (s.effAddr rs1 imm).toNat w).signExtend 32) := by
  simp [State.load, State.memRead, h]

/-- A load at a refused address (44_load.md R154). -/
theorem State.load_of_refused {w : Width} {rd rs1 : RegIdx} {imm : BitVec 12}
    (h : accessRefused (s.effAddr rs1 imm) w.bytes = true) :
    s.load w rd rs1 imm = (s.reportMemRegion.writeResult rd s.invalidLoad).countDraw := by
  simp [State.load, State.memRead, h]

/-- A store at an accessible address. -/
theorem State.store_of_accessible {w : Width} {rs2 rs1 : RegIdx} {imm : BitVec 12}
    (h : accessRefused (s.effAddr rs1 imm) w.bytes = false) :
    s.store w rs2 rs1 imm = (s.writeLE (s.effAddr rs1 imm).toNat (s.readReg rs2) w.bytes).advance := by
  simp [State.store, State.memWrite, h]

/-- A store at a refused address (45_store.md R155). -/
theorem State.store_of_refused {w : Width} {rs2 rs1 : RegIdx} {imm : BitVec 12}
    (h : accessRefused (s.effAddr rs1 imm) w.bytes = true) :
    s.store w rs2 rs1 imm = s.reportMemRegion.advance := by
  simp [State.store, State.memWrite, h]

/-! ## The shape of an outcome -/

/-- What an instruction makes of a state: one of the five shapes. -/
inductive Shape where
  | result (rd : RegIdx) (v : Word)
  | load (w : Width) (rd rs1 : RegIdx) (imm : BitVec 12)
  | store (w : Width) (rs2 rs1 : RegIdx) (imm : BitVec 12)
  | branch (taken : Bool) (imm : BitVec 13)
  | jump (rd : RegIdx) (target : Word)

/-- The state of a shape. -/
def Shape.apply (s : State) : Shape → State
  | .result rd v => s.writeResult rd v
  | .load w rd rs1 imm => s.load w rd rs1 imm
  | .store w rs2 rs1 imm => s.store w rs2 rs1 imm
  | .branch taken imm => s.branch taken imm
  | .jump rd target => s.jump rd target

/-- The shape of an instruction in a state. -/
def shapeOf (s : State) : Instr → Shape
  | .add rd rs1 rs2 => .result rd (aluAdd (s.readReg rs1) (s.readReg rs2))
  | .sub rd rs1 rs2 => .result rd (aluSub (s.readReg rs1) (s.readReg rs2))
  | .xor rd rs1 rs2 => .result rd (aluXor (s.readReg rs1) (s.readReg rs2))
  | .or rd rs1 rs2 => .result rd (aluOr (s.readReg rs1) (s.readReg rs2))
  | .and rd rs1 rs2 => .result rd (aluAnd (s.readReg rs1) (s.readReg rs2))
  | .sll rd rs1 rs2 => .result rd (aluSll (s.readReg rs1) (shiftAmount (s.readReg rs2)))
  | .slt rd rs1 rs2 => .result rd (aluSlt (s.readReg rs1) (s.readReg rs2))
  | .srl rd rs1 rs2 => .result rd (aluSrl (s.readReg rs1) (shiftAmount (s.readReg rs2)))
  | .sra rd rs1 rs2 => .result rd (aluSra (s.readReg rs1) (shiftAmount (s.readReg rs2)))
  | .mul rd rs1 rs2 => .result rd (aluMul (s.readReg rs1) (s.readReg rs2))
  | .div rd rs1 rs2 => .result rd (aluDiv (s.readReg rs1) (s.readReg rs2))
  | .rem rd rs1 rs2 => .result rd (aluRem (s.readReg rs1) (s.readReg rs2))
  | .addi rd rs1 imm => .result rd (aluAdd (s.readReg rs1) (imm12 imm))
  | .andi rd rs1 imm => .result rd (aluAnd (s.readReg rs1) (imm12 imm))
  | .ori rd rs1 imm => .result rd (aluOr (s.readReg rs1) (imm12 imm))
  | .xori rd rs1 imm => .result rd (aluXor (s.readReg rs1) (imm12 imm))
  | .slti rd rs1 imm => .result rd (aluSlt (s.readReg rs1) (imm12 imm))
  | .slli rd rs1 imm => .result rd (aluSll (s.readReg rs1) (shamtOf imm))
  | .srli rd rs1 shamt => .result rd (aluSrl (s.readReg rs1) shamt)
  | .srai rd rs1 shamt => .result rd (aluSra (s.readReg rs1) shamt)
  | .lb rd rs1 imm => .load .byte rd rs1 imm
  | .lh rd rs1 imm => .load .half rd rs1 imm
  | .lw rd rs1 imm => .load .word rd rs1 imm
  | .sb rs2 rs1 imm => .store .byte rs2 rs1 imm
  | .sh rs2 rs1 imm => .store .half rs2 rs1 imm
  | .sw rs2 rs1 imm => .store .word rs2 rs1 imm
  | .beq rs1 rs2 imm => .branch (isEqual (s.readReg rs1) (s.readReg rs2)) imm
  | .bne rs1 rs2 imm => .branch (!isEqual (s.readReg rs1) (s.readReg rs2)) imm
  | .blt rs1 rs2 imm => .branch (isLessSigned (s.readReg rs1) (s.readReg rs2)) imm
  | .bge rs1 rs2 imm => .branch (!isLessSigned (s.readReg rs1) (s.readReg rs2)) imm
  | .jal rd imm => .jump rd (s.jalTarget imm)
  | .jalr rd rs1 _ imm => .jump rd (s.jalrTarget rs1 imm)
  | .lui rd imm20 => .result rd (immUpper imm20)
  | .auipc rd imm20 => .result rd (aluAdd s.pc (immUpper imm20))

/-- What `exec` answers, said once: the state of the instruction's shape. -/
theorem exec_eq_shape (i : Instr) (s : State) : exec i s = .next ((shapeOf s i).apply s) := by cases i <;> rfl

/-- The next state of an instruction is that of its shape. -/
theorem next_of_exec {i : Instr} {s t : State} (h : exec i s = .next t) : t = (shapeOf s i).apply s := by
  rw [exec_eq_shape] at h; exact (Host.Outcome.next.inj h).symm

/-! ## What every shape keeps -/

/-- Loads keep everything but registers, pc, the error outputs and the draw counter. -/
theorem State.load_kept (w : Width) (rd rs1 : RegIdx) (imm : BitVec 12) :
    (s.load w rd rs1 imm).im = s.im ∧ (s.load w rd rs1 imm).dm = s.dm ∧ (s.load w rd rs1 imm).sm = s.sm ∧
    (s.load w rd rs1 imm).halted = s.halted ∧ (s.load w rd rs1 imm).haltCause = s.haltCause ∧
    (s.load w rd rs1 imm).retired = s.retired ∧ (s.load w rd rs1 imm).pc = s.pc + 4#32 := by
  cases h : accessRefused (s.effAddr rs1 imm) w.bytes
  · rw [State.load_of_accessible s h]; simp [State.writeResult, State.pcPlus4]
  · rw [State.load_of_refused s h]; simp [State.writeResult, State.pcPlus4]

/-- Stores keep everything but the data memories, pc and the error outputs. -/
theorem State.store_kept (w : Width) (rs2 rs1 : RegIdx) (imm : BitVec 12) :
    (s.store w rs2 rs1 imm).x = s.x ∧ (s.store w rs2 rs1 imm).im = s.im ∧
    (s.store w rs2 rs1 imm).halted = s.halted ∧ (s.store w rs2 rs1 imm).haltCause = s.haltCause ∧
    (s.store w rs2 rs1 imm).retired = s.retired ∧ (s.store w rs2 rs1 imm).draws = s.draws ∧
    (s.store w rs2 rs1 imm).pc = s.pc + 4#32 := by
  cases h : accessRefused (s.effAddr rs1 imm) w.bytes
  · rw [State.store_of_accessible s h]; simp [State.pcPlus4]
  · rw [State.store_of_refused s h]; simp [State.pcPlus4]

/-! ## Registers and bytes after a load or a store, performed or refused -/

/-- A load leaves every register but its destination. -/
theorem State.readReg_load_ne {w : Width} {rd rs1 r : RegIdx} {imm : BitVec 12} (h : r ≠ rd) :
    (s.load w rd rs1 imm).readReg r = s.readReg r := by
  cases ha : accessRefused (s.effAddr rs1 imm) w.bytes
  · rw [s.load_of_accessible ha, State.readReg_writeResult, if_neg h]
  · rw [s.load_of_refused ha]; simp [State.readReg_writeResult, h]

/-- A load leaves every byte. -/
theorem State.byteAt_load (w : Width) (rd rs1 : RegIdx) (imm : BitVec 12) (a : Nat) :
    (s.load w rd rs1 imm).byteAt a = s.byteAt a :=
  have h := s.load_kept w rd rs1 imm
  State.byteAt_congr h.2.1 h.2.2.1 a

/-- A store leaves every register. -/
theorem State.readReg_store (w : Width) (rs2 rs1 r : RegIdx) (imm : BitVec 12) :
    (s.store w rs2 rs1 imm).readReg r = s.readReg r := State.readReg_congr (s.store_kept w rs2 rs1 imm).1 r

/-- A store leaves every byte outside the bytes it addresses. -/
theorem State.byteAt_store_outside {w : Width} {rs2 rs1 : RegIdx} {imm : BitVec 12} {a : Nat}
    (h : a < (s.effAddr rs1 imm).toNat ∨ (s.effAddr rs1 imm).toNat + w.bytes ≤ a) :
    (s.store w rs2 rs1 imm).byteAt a = s.byteAt a := by
  cases ha : accessRefused (s.effAddr rs1 imm) w.bytes
  · rw [s.store_of_accessible ha, State.byteAt_advance, State.byteAt_writeLE_outside _ _ _ _ _ h]
  · rw [s.store_of_refused ha]; rfl

/-- No shape touches the instruction memory, the halt status or the retired count (10_state.md R33, R35, R37). -/
theorem Shape.apply_kept (f : Shape) : (f.apply s).im = s.im ∧ (f.apply s).halted = s.halted ∧
    (f.apply s).haltCause = s.haltCause ∧ (f.apply s).retired = s.retired := by
  cases f with
  | result rd v => simp [Shape.apply, State.writeResult]
  | load w rd rs1 imm => have h := s.load_kept w rd rs1 imm; simp only [Shape.apply]; tauto
  | store w rs2 rs1 imm => have h := s.store_kept w rs2 rs1 imm; simp only [Shape.apply]; tauto
  | branch taken imm => simp [Shape.apply, State.branch]
  | jump rd target => simp [Shape.apply, State.jump]

end Sys2Proof.Machine
end

