-- ==== Sys2Proof/Laws/Step.lean ====
section
/-! SUPPORT. What a step can do, said once. -/

namespace Sys2Proof.Machine

/-- Fetch and decode either halt with a cause that is not NONE or find a decoded word (40_cycle.md R101 to R104). -/
theorem State.fetchDecode_cases (s : State) :
    (s.ifetch s.pc = none ∧ s.fetchDecode = .halt .fetchMiss) ∨
    (s.ifetch s.pc = some 0#32 ∧ s.fetchDecode = .halt .sentinel) ∨
    (∃ w r, s.ifetch s.pc = some w ∧ w ≠ 0#32 ∧ decode w = .error r ∧ s.fetchDecode = .halt .illegal) ∨
    (∃ w i, s.ifetch s.pc = some w ∧ w ≠ 0#32 ∧ decode w = .ok i ∧ s.fetchDecode = .run i) := by
  unfold State.fetchDecode
  cases hf : s.ifetch s.pc with
  | none => exact .inl ⟨rfl, rfl⟩
  | some w =>
    by_cases hw : w = 0#32
    · subst hw; exact .inr (.inl ⟨rfl, by simp⟩)
    · cases hd : decode w with
      | error r => exact .inr (.inr (.inl ⟨w, r, rfl, hw, hd, by simp [hw, hd]⟩))
      | ok i => exact .inr (.inr (.inr ⟨w, i, rfl, hw, hd, by simp [hw, hd]⟩))

/-- A halted core's step. -/
theorem step_of_halted {s : State} (h : s.halted = true) : step s = .next s := by
  simp [step, State.stepCycle, h]

/-- A step that halts. -/
theorem step_of_halt {s : State} {c : HaltCause} (h : s.halted = false) (hf : s.fetchDecode = .halt c) :
    step s = .next (s.beginCycle.halt c) := by
  simp [step, State.stepCycle, h, State.cycle, hf]

/-- A step that executes. -/
theorem step_of_run {s : State} {i : Instr} (h : s.halted = false) (hf : s.fetchDecode = .run i) :
    step s = .next ((shapeOf s.beginCycle i).apply s.beginCycle).retire := by
  simp [step, State.stepCycle, h, State.cycle, hf, exec_eq_shape, retireOutcome]

/-- Everything a step can do. -/
theorem step_cases {s t : State} (h : step s = .next t) :
    (s.halted = true ∧ t = s) ∨
    (s.halted = false ∧ s.ifetch s.pc = none ∧ t = s.beginCycle.halt .fetchMiss) ∨
    (s.halted = false ∧ s.ifetch s.pc = some 0#32 ∧ t = s.beginCycle.halt .sentinel) ∨
    (s.halted = false ∧ (∃ w r, s.ifetch s.pc = some w ∧ w ≠ 0#32 ∧ decode w = .error r) ∧
      t = s.beginCycle.halt .illegal) ∨
    (s.halted = false ∧ ∃ w i, s.ifetch s.pc = some w ∧ w ≠ 0#32 ∧ decode w = .ok i ∧
      t = ((shapeOf s.beginCycle i).apply s.beginCycle).retire) := by
  cases hh : s.halted with
  | true => rw [step_of_halted hh] at h; exact .inl ⟨rfl, (Host.Outcome.next.inj h).symm⟩
  | false =>
    rcases s.fetchDecode_cases with ⟨hf, hd⟩ | ⟨hf, hd⟩ | ⟨w, r, hf, hw, hr, hd⟩ | ⟨w, i, hf, hw, hi, hd⟩
    · rw [step_of_halt hh hd] at h; exact .inr (.inl ⟨rfl, hf, (Host.Outcome.next.inj h).symm⟩)
    · rw [step_of_halt hh hd] at h; exact .inr (.inr (.inl ⟨rfl, hf, (Host.Outcome.next.inj h).symm⟩))
    · rw [step_of_halt hh hd] at h
      exact .inr (.inr (.inr (.inl ⟨rfl, ⟨w, r, hf, hw, hr⟩, (Host.Outcome.next.inj h).symm⟩)))
    · rw [step_of_run hh hd] at h
      exact .inr (.inr (.inr (.inr ⟨rfl, w, i, hf, hw, hi, (Host.Outcome.next.inj h).symm⟩)))

end Sys2Proof.Machine
end

