-- ==== Sys2Proof/Laws/Invariant.lean ====
section
/-! SUPPORT. That the operations over registers and memories keep the parts of the invariant. -/

namespace Sys2Proof.Machine

variable {s : State}

/-! ## Register 0 (10_state.md R21) -/

theorem State.load_x_zero (s : State) (w : Width) (rd rs1 : RegIdx) (imm : BitVec 12) :
    (s.load w rd rs1 imm).x[0] = s.x[0] := by
  cases h : accessRefused (s.effAddr rs1 imm) w.bytes
  · exact (congrArg (fun t : State => t.x[0]) (s.load_of_accessible h)).trans (by simp [State.writeResult, State.writeReg_x_zero])
  · exact (congrArg (fun t : State => t.x[0]) (s.load_of_refused h)).trans (by simp [State.writeResult, State.writeReg_x_zero])

/-- No instruction changes the stored word of register 0. -/
theorem Shape.apply_x_zero (s : State) (f : Shape) : (f.apply s).x[0] = s.x[0] := by
  cases f with
  | result rd v => simp [Shape.apply, State.writeResult, State.writeReg_x_zero]
  | load w rd rs1 imm => exact s.load_x_zero w rd rs1 imm
  | store w rs2 rs1 imm => exact congrArg (fun x : Vector Word 32 => x[0]) (s.store_kept w rs2 rs1 imm).1
  | branch taken imm => rfl
  | jump rd target => simp [Shape.apply, State.jump, State.writeReg_x_zero]

/-! ## The memories (20_memory.md R41, R45, R53) -/

/-- A byte written at an address of the data or the stack segment. -/
theorem State.dataMemWf_writeByte (h : s.dataMemWf) {a : Nat} (lo : dataBase ≤ a) (hi : a < addressEnd) (b : Byte) :
    (s.writeByte a b).dataMemWf := by
  obtain ⟨hd, hdr, hs, hsr⟩ := h
  by_cases ha : a < stackBase
  · have hseg : segmentOf a = .data := by simp [segmentOf, Nat.not_lt.2 lo, ha]
    have e : s.writeByte a b = { s with dm := s.dm.write a b } := by simp [State.writeByte, hseg]
    rw [e]
    refine ⟨Memory.wf_write hd a b, fun c hc => ?_, hs, hsr⟩
    rcases Memory.mem_write hc with rfl | hc
    · exact ⟨lo, ha⟩
    · exact hdr c hc
  · have hseg : segmentOf a = .stack := by simp [segmentOf, Nat.not_lt.2 lo, ha]
    have e : s.writeByte a b = { s with sm := s.sm.write a b } := by simp [State.writeByte, hseg]
    rw [e]
    refine ⟨hd, hdr, Memory.wf_write hs a b, fun c hc => ?_⟩
    rcases Memory.mem_write hc with rfl | hc
    · exact ⟨Nat.not_lt.1 ha, hi⟩
    · exact hsr c hc

/-- The bytes of a value written inside the data and stack segments. -/
theorem State.dataMemWf_writeLE (h : s.dataMemWf) {a : Nat} (lo : dataBase ≤ a) (v : Word) (n : Nat)
    (hi : a + n ≤ addressEnd) : (s.writeLE a v n).dataMemWf := by
  induction n with
  | zero => exact h
  | succ n ih => exact State.dataMemWf_writeByte (ih (by omega)) (by omega) (by omega) _

/-- Two states with the same data memories. -/
theorem State.dataMemWf_congr {t : State} (hd : t.dm = s.dm) (hs : t.sm = s.sm) (h : s.dataMemWf) : t.dataMemWf := by
  simpa only [State.dataMemWf, hd, hs] using h

/-- `MemWrite`, performed or refused. -/
theorem State.dataMemWf_memWrite (h : s.dataMemWf) (addr : Word) (w : Width) (v : Word) : (s.memWrite addr w v).dataMemWf := by
  unfold State.memWrite
  split
  · exact h
  · rename_i hr
    have hr := accessRefused_eq_false.1 (Bool.not_eq_true _ ▸ hr)
    exact State.dataMemWf_writeLE h hr.1 v _ hr.2

/-- A word stored at a fetchable address. -/
theorem State.instrMemWf_write (h : s.instrMemWf) {a : Nat} (ha : a % 4 = 0) (hi : a < dataBase) (w : Word) :
    ({ s with im := s.im.write a w } : State).instrMemWf := by
  refine ⟨InstrMem.wf_write h.1 a w, fun c hc => ?_⟩
  rcases InstrMem.mem_write hc with rfl | hc
  · exact ⟨ha, hi⟩
  · exact h.2 c hc

/-- `fetchable` says that an address is a multiple of 4 in the instruction segment (R45). -/
theorem fetchable_iff {a : Word} : fetchable a = true ↔ a.toNat % 4 = 0 ∧ a.toNat < dataBase := by
  unfold fetchable segmentOf
  by_cases h : a.toNat < dataBase
  · simp [h]
  · by_cases h2 : a.toNat < stackBase <;> simp [h, h2]

/-! ## The pc (10_state.md R27) -/

/-- Moving on by 4 keeps the pc even. -/
theorem even_add_four {v : Word} (h : v.getLsbD 0 = false) : (v + 4#32).getLsbD 0 = false := by
  have e : ∀ u : Word, u.getLsbD 0 = decide (u.toNat % 2 = 1) := fun u => by
    rw [BitVec.getLsbD, Nat.testBit_zero]
  rw [e, decide_eq_false_iff_not] at *
  rw [BitVec.toNat_add]
  simp only [BitVec.toNat_ofNat]
  omega

end Sys2Proof.Machine
end

