-- ==== Sys2Proof/Laws/PerInstr.lean ====
section
/-! SUPPORT. Per instruction: its encoding matches the row of the opcode map that has its name (30_encoding.md R80). -/

namespace Sys2Proof.Laws.EncodesRow

open Sys2Proof

/-- The encoding of the instruction matches the row of the opcode map with its mnemonic. -/
def Statement (i : Instr) : Prop := ∃ r ∈ opcodeRows, r.mnemonic = i.mnemonic ∧ encode i &&& r.mask = r.pat

/-- A row with opcode, funct3 and funct7. -/
theorem of_mask7 {i : Instr} {pat : Word} (f7 : BitVec 7) (f3 : BitVec 3) (op : BitVec 7)
    (hr : ⟨i.mnemonic, pat, 0xFE00707F#32⟩ ∈ opcodeRows) (hp : pat = packR f7 0#5 0#5 f3 0#5 op)
    (ho : opcodeOf (encode i) = op) (h3 : funct3Of (encode i) = f3) (h7 : funct7Of (encode i) = f7) : Statement i :=
  ⟨_, hr, rfl, by rw [hp]; exact (mask_opcode_funct3_funct7 _ _ _ _).2 ⟨ho, h3, h7⟩⟩

/-- A row with opcode and funct3. -/
theorem of_mask3 {i : Instr} {pat : Word} (f3 : BitVec 3) (op : BitVec 7)
    (hr : ⟨i.mnemonic, pat, 0x0000707F#32⟩ ∈ opcodeRows) (hp : pat = packR 0#7 0#5 0#5 f3 0#5 op)
    (ho : opcodeOf (encode i) = op) (h3 : funct3Of (encode i) = f3) : Statement i :=
  ⟨_, hr, rfl, by rw [hp]; exact (mask_opcode_funct3 _ _ _).2 ⟨ho, h3⟩⟩

/-- A row with the opcode alone. -/
theorem of_mask0 {i : Instr} {pat : Word} (op : BitVec 7)
    (hr : ⟨i.mnemonic, pat, 0x0000007F#32⟩ ∈ opcodeRows) (hp : pat = packR 0#7 0#5 0#5 0#3 0#5 op)
    (ho : opcodeOf (encode i) = op) : Statement i :=
  ⟨_, hr, rfl, by rw [hp]; exact (mask_opcode _ _).2 ho⟩

/-- The `top` of an immediate shift stands where funct7 stands (R72). -/
theorem funct7Of_shift (t : BitVec 7) (sh : BitVec 5) (rs1 rd : RegIdx) (f3 : BitVec 3) (op : BitVec 7) :
    funct7Of (packI (t ++ sh) rs1 f3 rd op) = t := by
  refine BitVec.eq_of_getLsbD_eq fun k hk => ?_
  have h : ∀ j, BitVec.getLsbD (w := 12) (t ++ sh) j = if j < 5 then sh.getLsbD j else t.getLsbD (j - 5) := fun j => by
    show BitVec.getLsbD (w := 7 + 5) (t ++ sh) j = _
    simp only [BitVec.getLsbD_append]
  simp only [funct7Of, BitVec.getLsbD_extractLsb', packI_bit, h]
  interval_cases k <;> simp

theorem add (rd rs1 rs2 : RegIdx) : Statement (.add rd rs1 rs2) :=
  of_mask7 0x00#7 0#3 0x33#7 (pat := 0x00000033#32) (by simp [opcodeRows, opcodeRowsOp, opcodeRowsOther, Instr.mnemonic]) rfl
    (by simp [encode]) (by simp [encode]) (by simp [encode])

theorem sub (rd rs1 rs2 : RegIdx) : Statement (.sub rd rs1 rs2) :=
  of_mask7 0x20#7 0#3 0x33#7 (pat := 0x40000033#32) (by simp [opcodeRows, opcodeRowsOp, opcodeRowsOther, Instr.mnemonic]) rfl
    (by simp [encode]) (by simp [encode]) (by simp [encode])

theorem xor (rd rs1 rs2 : RegIdx) : Statement (.xor rd rs1 rs2) :=
  of_mask7 0x00#7 4#3 0x33#7 (pat := 0x00004033#32) (by simp [opcodeRows, opcodeRowsOp, opcodeRowsOther, Instr.mnemonic]) rfl
    (by simp [encode]) (by simp [encode]) (by simp [encode])

theorem or (rd rs1 rs2 : RegIdx) : Statement (.or rd rs1 rs2) :=
  of_mask7 0x00#7 6#3 0x33#7 (pat := 0x00006033#32) (by simp [opcodeRows, opcodeRowsOp, opcodeRowsOther, Instr.mnemonic]) rfl
    (by simp [encode]) (by simp [encode]) (by simp [encode])

theorem and (rd rs1 rs2 : RegIdx) : Statement (.and rd rs1 rs2) :=
  of_mask7 0x00#7 7#3 0x33#7 (pat := 0x00007033#32) (by simp [opcodeRows, opcodeRowsOp, opcodeRowsOther, Instr.mnemonic]) rfl
    (by simp [encode]) (by simp [encode]) (by simp [encode])

theorem sll (rd rs1 rs2 : RegIdx) : Statement (.sll rd rs1 rs2) :=
  of_mask7 0x00#7 1#3 0x33#7 (pat := 0x00001033#32) (by simp [opcodeRows, opcodeRowsOp, opcodeRowsOther, Instr.mnemonic]) rfl
    (by simp [encode]) (by simp [encode]) (by simp [encode])

theorem slt (rd rs1 rs2 : RegIdx) : Statement (.slt rd rs1 rs2) :=
  of_mask7 0x00#7 2#3 0x33#7 (pat := 0x00002033#32) (by simp [opcodeRows, opcodeRowsOp, opcodeRowsOther, Instr.mnemonic]) rfl
    (by simp [encode]) (by simp [encode]) (by simp [encode])

theorem srl (rd rs1 rs2 : RegIdx) : Statement (.srl rd rs1 rs2) :=
  of_mask7 0x00#7 5#3 0x33#7 (pat := 0x00005033#32) (by simp [opcodeRows, opcodeRowsOp, opcodeRowsOther, Instr.mnemonic]) rfl
    (by simp [encode]) (by simp [encode]) (by simp [encode])

theorem sra (rd rs1 rs2 : RegIdx) : Statement (.sra rd rs1 rs2) :=
  of_mask7 0x20#7 5#3 0x33#7 (pat := 0x40005033#32) (by simp [opcodeRows, opcodeRowsOp, opcodeRowsOther, Instr.mnemonic]) rfl
    (by simp [encode]) (by simp [encode]) (by simp [encode])

theorem mul (rd rs1 rs2 : RegIdx) : Statement (.mul rd rs1 rs2) :=
  of_mask7 0x01#7 0#3 0x33#7 (pat := 0x02000033#32) (by simp [opcodeRows, opcodeRowsOp, opcodeRowsOther, Instr.mnemonic]) rfl
    (by simp [encode]) (by simp [encode]) (by simp [encode])

theorem div (rd rs1 rs2 : RegIdx) : Statement (.div rd rs1 rs2) :=
  of_mask7 0x01#7 4#3 0x33#7 (pat := 0x02004033#32) (by simp [opcodeRows, opcodeRowsOp, opcodeRowsOther, Instr.mnemonic]) rfl
    (by simp [encode]) (by simp [encode]) (by simp [encode])

theorem rem (rd rs1 rs2 : RegIdx) : Statement (.rem rd rs1 rs2) :=
  of_mask7 0x01#7 6#3 0x33#7 (pat := 0x02006033#32) (by simp [opcodeRows, opcodeRowsOp, opcodeRowsOther, Instr.mnemonic]) rfl
    (by simp [encode]) (by simp [encode]) (by simp [encode])

theorem addi (rd rs1 : RegIdx) (imm : BitVec 12) : Statement (.addi rd rs1 imm) :=
  of_mask3 0#3 0x13#7 (pat := 0x00000013#32) (by simp [opcodeRows, opcodeRowsOp, opcodeRowsOther, Instr.mnemonic]) rfl
    (by simp [encode]) (by simp [encode])

theorem andi (rd rs1 : RegIdx) (imm : BitVec 12) : Statement (.andi rd rs1 imm) :=
  of_mask3 7#3 0x13#7 (pat := 0x00007013#32) (by simp [opcodeRows, opcodeRowsOp, opcodeRowsOther, Instr.mnemonic]) rfl
    (by simp [encode]) (by simp [encode])

theorem ori (rd rs1 : RegIdx) (imm : BitVec 12) : Statement (.ori rd rs1 imm) :=
  of_mask3 6#3 0x13#7 (pat := 0x00006013#32) (by simp [opcodeRows, opcodeRowsOp, opcodeRowsOther, Instr.mnemonic]) rfl
    (by simp [encode]) (by simp [encode])

theorem xori (rd rs1 : RegIdx) (imm : BitVec 12) : Statement (.xori rd rs1 imm) :=
  of_mask3 4#3 0x13#7 (pat := 0x00004013#32) (by simp [opcodeRows, opcodeRowsOp, opcodeRowsOther, Instr.mnemonic]) rfl
    (by simp [encode]) (by simp [encode])

theorem slti (rd rs1 : RegIdx) (imm : BitVec 12) : Statement (.slti rd rs1 imm) :=
  of_mask3 2#3 0x13#7 (pat := 0x00002013#32) (by simp [opcodeRows, opcodeRowsOp, opcodeRowsOther, Instr.mnemonic]) rfl
    (by simp [encode]) (by simp [encode])

theorem slli (rd rs1 : RegIdx) (imm : BitVec 12) : Statement (.slli rd rs1 imm) :=
  of_mask3 1#3 0x13#7 (pat := 0x00001013#32) (by simp [opcodeRows, opcodeRowsOp, opcodeRowsOther, Instr.mnemonic]) rfl
    (by simp [encode]) (by simp [encode])

theorem srli (rd rs1 : RegIdx) (shamt : BitVec 5) : Statement (.srli rd rs1 shamt) :=
  of_mask7 0x00#7 5#3 0x13#7 (pat := 0x00005013#32) (by simp [opcodeRows, opcodeRowsOp, opcodeRowsOther, Instr.mnemonic]) rfl
    (by simp [encode]) (by simp [encode]) (funct7Of_shift _ _ _ _ _ _)

theorem srai (rd rs1 : RegIdx) (shamt : BitVec 5) : Statement (.srai rd rs1 shamt) :=
  of_mask7 0x20#7 5#3 0x13#7 (pat := 0x40005013#32) (by simp [opcodeRows, opcodeRowsOp, opcodeRowsOther, Instr.mnemonic]) rfl
    (by simp [encode]) (by simp [encode]) (funct7Of_shift _ _ _ _ _ _)

theorem lb (rd rs1 : RegIdx) (imm : BitVec 12) : Statement (.lb rd rs1 imm) :=
  of_mask3 0#3 0x03#7 (pat := 0x00000003#32) (by simp [opcodeRows, opcodeRowsOp, opcodeRowsOther, Instr.mnemonic]) rfl
    (by simp [encode]) (by simp [encode])

theorem lh (rd rs1 : RegIdx) (imm : BitVec 12) : Statement (.lh rd rs1 imm) :=
  of_mask3 1#3 0x03#7 (pat := 0x00001003#32) (by simp [opcodeRows, opcodeRowsOp, opcodeRowsOther, Instr.mnemonic]) rfl
    (by simp [encode]) (by simp [encode])

theorem lw (rd rs1 : RegIdx) (imm : BitVec 12) : Statement (.lw rd rs1 imm) :=
  of_mask3 2#3 0x03#7 (pat := 0x00002003#32) (by simp [opcodeRows, opcodeRowsOp, opcodeRowsOther, Instr.mnemonic]) rfl
    (by simp [encode]) (by simp [encode])

theorem sb (rs2 rs1 : RegIdx) (imm : BitVec 12) : Statement (.sb rs2 rs1 imm) :=
  of_mask3 0#3 0x23#7 (pat := 0x00000023#32) (by simp [opcodeRows, opcodeRowsOp, opcodeRowsOther, Instr.mnemonic]) rfl
    (by simp [encode]) (by simp [encode])

theorem sh (rs2 rs1 : RegIdx) (imm : BitVec 12) : Statement (.sh rs2 rs1 imm) :=
  of_mask3 1#3 0x23#7 (pat := 0x00001023#32) (by simp [opcodeRows, opcodeRowsOp, opcodeRowsOther, Instr.mnemonic]) rfl
    (by simp [encode]) (by simp [encode])

theorem sw (rs2 rs1 : RegIdx) (imm : BitVec 12) : Statement (.sw rs2 rs1 imm) :=
  of_mask3 2#3 0x23#7 (pat := 0x00002023#32) (by simp [opcodeRows, opcodeRowsOp, opcodeRowsOther, Instr.mnemonic]) rfl
    (by simp [encode]) (by simp [encode])

theorem beq (rs1 rs2 : RegIdx) (imm : BitVec 13) : Statement (.beq rs1 rs2 imm) :=
  of_mask3 0#3 0x63#7 (pat := 0x00000063#32) (by simp [opcodeRows, opcodeRowsOp, opcodeRowsOther, Instr.mnemonic]) rfl
    (by simp [encode]) (by simp [encode])

theorem bne (rs1 rs2 : RegIdx) (imm : BitVec 13) : Statement (.bne rs1 rs2 imm) :=
  of_mask3 1#3 0x63#7 (pat := 0x00001063#32) (by simp [opcodeRows, opcodeRowsOp, opcodeRowsOther, Instr.mnemonic]) rfl
    (by simp [encode]) (by simp [encode])

theorem blt (rs1 rs2 : RegIdx) (imm : BitVec 13) : Statement (.blt rs1 rs2 imm) :=
  of_mask3 4#3 0x63#7 (pat := 0x00004063#32) (by simp [opcodeRows, opcodeRowsOp, opcodeRowsOther, Instr.mnemonic]) rfl
    (by simp [encode]) (by simp [encode])

theorem bge (rs1 rs2 : RegIdx) (imm : BitVec 13) : Statement (.bge rs1 rs2 imm) :=
  of_mask3 5#3 0x63#7 (pat := 0x00005063#32) (by simp [opcodeRows, opcodeRowsOp, opcodeRowsOther, Instr.mnemonic]) rfl
    (by simp [encode]) (by simp [encode])

theorem jal (rd : RegIdx) (imm : BitVec 21) : Statement (.jal rd imm) :=
  of_mask0 0x6F#7 (pat := 0x0000006F#32) (by simp [opcodeRows, opcodeRowsOp, opcodeRowsOther, Instr.mnemonic]) rfl (by simp [encode])

theorem jalr (rd rs1 : RegIdx) (funct3 : BitVec 3) (imm : BitVec 12) : Statement (.jalr rd rs1 funct3 imm) :=
  of_mask0 0x67#7 (pat := 0x00000067#32) (by simp [opcodeRows, opcodeRowsOp, opcodeRowsOther, Instr.mnemonic]) rfl (by simp [encode])

theorem lui (rd : RegIdx) (imm20 : BitVec 20) : Statement (.lui rd imm20) :=
  of_mask0 0x37#7 (pat := 0x00000037#32) (by simp [opcodeRows, opcodeRowsOp, opcodeRowsOther, Instr.mnemonic]) rfl (by simp [encode])

theorem auipc (rd : RegIdx) (imm20 : BitVec 20) : Statement (.auipc rd imm20) :=
  of_mask0 0x17#7 (pat := 0x00000017#32) (by simp [opcodeRows, opcodeRowsOp, opcodeRowsOther, Instr.mnemonic]) rfl (by simp [encode])

end Sys2Proof.Laws.EncodesRow
end

