-- ==== Sys2Proof/Tests/Slice0.lean ====
section
/-! SUPPORT. The model's own tests: well-formedness, decoding, one step of each instruction, halting, the host's port. Every
expected value is the spec's (95_test_vectors.md or the rule named). At the end, for each obligation with hypotheses, a
concrete state and operands that meet them. -/

namespace Sys2Proof.Tests

open Sys2Proof Sys2Proof.Machine

/-! ## Well-formedness: an ill-formed term for each check -/

theorem test_wf_refuses_odd_beq : (Instr.beq 1 2 3).wf = false := by decide
theorem test_wf_refuses_odd_bne : (Instr.bne 1 2 5).wf = false := by decide
theorem test_wf_refuses_odd_blt : (Instr.blt 1 2 (-1)).wf = false := by decide
theorem test_wf_refuses_odd_bge : (Instr.bge 1 2 7).wf = false := by decide
theorem test_wf_refuses_odd_jal : (Instr.jal 1 1).wf = false := by decide
theorem test_wf_accepts_even_offsets : (Instr.beq 1 2 (-4096)).wf = true ∧ (Instr.jal 1 1048574).wf = true := by decide

/-! Decoding: one word for every constructor, written out field by field, most significant first, from the layouts of
R71 to R76 and the codes of R80; the operands are those of the spec's examples (the rule or file is named). -/

/-- R121: 0x002081B3 -/
theorem test_decode_add : decode (0b0000000#7 ++ 0b00010#5 ++ 0b00001#5 ++ 0b000#3 ++ 0b00011#5 ++ 0b0110011#7) = .ok (.add 3 1 2) := by decide

/-- R122: 0x402081B3 -/
theorem test_decode_sub : decode (0b0100000#7 ++ 0b00010#5 ++ 0b00001#5 ++ 0b000#3 ++ 0b00011#5 ++ 0b0110011#7) = .ok (.sub 3 1 2) := by decide

/-- R123: 0x0020C1B3 -/
theorem test_decode_xor : decode (0b0000000#7 ++ 0b00010#5 ++ 0b00001#5 ++ 0b100#3 ++ 0b00011#5 ++ 0b0110011#7) = .ok (.xor 3 1 2) := by decide

/-- R124: 0x0020E1B3 -/
theorem test_decode_or : decode (0b0000000#7 ++ 0b00010#5 ++ 0b00001#5 ++ 0b110#3 ++ 0b00011#5 ++ 0b0110011#7) = .ok (.or 3 1 2) := by decide

/-- R125: 0x0020F1B3 -/
theorem test_decode_and : decode (0b0000000#7 ++ 0b00010#5 ++ 0b00001#5 ++ 0b111#3 ++ 0b00011#5 ++ 0b0110011#7) = .ok (.and 3 1 2) := by decide

/-- R126: 0x002091B3 -/
theorem test_decode_sll : decode (0b0000000#7 ++ 0b00010#5 ++ 0b00001#5 ++ 0b001#3 ++ 0b00011#5 ++ 0b0110011#7) = .ok (.sll 3 1 2) := by decide

/-- R127: 0x0020A1B3 -/
theorem test_decode_slt : decode (0b0000000#7 ++ 0b00010#5 ++ 0b00001#5 ++ 0b010#3 ++ 0b00011#5 ++ 0b0110011#7) = .ok (.slt 3 1 2) := by decide

/-- R128: 0x0020D1B3 -/
theorem test_decode_srl : decode (0b0000000#7 ++ 0b00010#5 ++ 0b00001#5 ++ 0b101#3 ++ 0b00011#5 ++ 0b0110011#7) = .ok (.srl 3 1 2) := by decide

/-- R129: 0x4020D1B3 -/
theorem test_decode_sra : decode (0b0100000#7 ++ 0b00010#5 ++ 0b00001#5 ++ 0b101#3 ++ 0b00011#5 ++ 0b0110011#7) = .ok (.sra 3 1 2) := by decide

/-- R131: 0x022081B3 -/
theorem test_decode_mul : decode (0b0000001#7 ++ 0b00010#5 ++ 0b00001#5 ++ 0b000#3 ++ 0b00011#5 ++ 0b0110011#7) = .ok (.mul 3 1 2) := by decide

/-- R132: 0x0220C1B3 -/
theorem test_decode_div : decode (0b0000001#7 ++ 0b00010#5 ++ 0b00001#5 ++ 0b100#3 ++ 0b00011#5 ++ 0b0110011#7) = .ok (.div 3 1 2) := by decide

/-- R133: 0x0220E1B3 -/
theorem test_decode_rem : decode (0b0000001#7 ++ 0b00010#5 ++ 0b00001#5 ++ 0b110#3 ++ 0b00011#5 ++ 0b0110011#7) = .ok (.rem 3 1 2) := by decide

/-- R141: 0xFFF08093 -/
theorem test_decode_addi : decode (0b111111111111#12 ++ 0b00001#5 ++ 0b000#3 ++ 0b00001#5 ++ 0b0010011#7) = .ok (.addi 1 1 (-1)) := by decide

/-- R142: 0x0FF37293 -/
theorem test_decode_andi : decode (0b000011111111#12 ++ 0b00110#5 ++ 0b111#3 ++ 0b00101#5 ++ 0b0010011#7) = .ok (.andi 5 6 0xFF) := by decide

/-- R143: 0x70036293 -/
theorem test_decode_ori : decode (0b011100000000#12 ++ 0b00110#5 ++ 0b110#3 ++ 0b00101#5 ++ 0b0010011#7) = .ok (.ori 5 6 0x700) := by decide

/-- R144: 0xFFF34293 -/
theorem test_decode_xori : decode (0b111111111111#12 ++ 0b00110#5 ++ 0b100#3 ++ 0b00101#5 ++ 0b0010011#7) = .ok (.xori 5 6 (-1)) := by decide

/-- R145: 0x00132293 -/
theorem test_decode_slti : decode (0b000000000001#12 ++ 0b00110#5 ++ 0b010#3 ++ 0b00101#5 ++ 0b0010011#7) = .ok (.slti 5 6 1) := by decide

/-- R146, B1: 0x02009093 -/
theorem test_decode_slli : decode (0b000000100000#12 ++ 0b00001#5 ++ 0b001#3 ++ 0b00001#5 ++ 0b0010011#7) = .ok (.slli 1 1 0x020) := by decide

/-- R147: 0x0010D113 -/
theorem test_decode_srli : decode (0b0000000#7 ++ 0b00001#5 ++ 0b00001#5 ++ 0b101#3 ++ 0b00010#5 ++ 0b0010011#7) = .ok (.srli 2 1 1) := by decide

/-- R148: 0x4010D193 -/
theorem test_decode_srai : decode (0b0100000#7 ++ 0b00001#5 ++ 0b00001#5 ++ 0b101#3 ++ 0b00011#5 ++ 0b0010011#7) = .ok (.srai 3 1 1) := by decide

/-- 95_test_vectors.md 2.4: 0xFFF30283 -/
theorem test_decode_lb : decode (0b111111111111#12 ++ 0b00110#5 ++ 0b000#3 ++ 0b00101#5 ++ 0b0000011#7) = .ok (.lb 5 6 (-1)) := by decide

/-- R152: 0x00231283 -/
theorem test_decode_lh : decode (0b000000000010#12 ++ 0b00110#5 ++ 0b001#3 ++ 0b00101#5 ++ 0b0000011#7) = .ok (.lh 5 6 2) := by decide

/-- R153: 0x0000A103 -/
theorem test_decode_lw : decode (0b000000000000#12 ++ 0b00001#5 ++ 0b010#3 ++ 0b00010#5 ++ 0b0000011#7) = .ok (.lw 2 1 0) := by decide

/-- 95_test_vectors.md 2.5: 0xFE530FA3 -/
theorem test_decode_sb : decode (0b1111111#7 ++ 0b00101#5 ++ 0b00110#5 ++ 0b000#3 ++ 0b11111#5 ++ 0b0100011#7) = .ok (.sb 5 6 (-1)) := by decide

/-- R157: 0x00531123 -/
theorem test_decode_sh : decode (0b0000000#7 ++ 0b00101#5 ++ 0b00110#5 ++ 0b001#3 ++ 0b00010#5 ++ 0b0100011#7) = .ok (.sh 5 6 2) := by decide

/-- R158: 0x00532223 -/
theorem test_decode_sw : decode (0b0000000#7 ++ 0b00101#5 ++ 0b00110#5 ++ 0b010#3 ++ 0b00100#5 ++ 0b0100011#7) = .ok (.sw 5 6 4) := by decide

/-- R165: 0x7E208FE3 -/
theorem test_decode_beq : decode (0b0#1 ++ 0b111111#6 ++ 0b00010#5 ++ 0b00001#5 ++ 0b000#3 ++ 0b1111#4 ++ 0b1#1 ++ 0b1100011#7) = .ok (.beq 1 2 4094) := by decide

/-- R162: 0xFE009EE3 -/
theorem test_decode_bne : decode (0b1#1 ++ 0b111111#6 ++ 0b00000#5 ++ 0b00001#5 ++ 0b001#3 ++ 0b1110#4 ++ 0b1#1 ++ 0b1100011#7) = .ok (.bne 1 0 (-4)) := by decide

/-- R163: 0xFE20CCE3 -/
theorem test_decode_blt : decode (0b1#1 ++ 0b111111#6 ++ 0b00010#5 ++ 0b00001#5 ++ 0b100#3 ++ 0b1100#4 ++ 0b1#1 ++ 0b1100011#7) = .ok (.blt 1 2 (-8)) := by decide

/-- R164: 0x0020D863 -/
theorem test_decode_bge : decode (0b0#1 ++ 0b000000#6 ++ 0b00010#5 ++ 0b00001#5 ++ 0b101#3 ++ 0b1000#4 ++ 0b0#1 ++ 0b1100011#7) = .ok (.bge 1 2 16) := by decide

/-- R171: 0x001000EF -/
theorem test_decode_jal : decode (0b0#1 ++ 0b0000000000#10 ++ 0b1#1 ++ 0b00000000#8 ++ 0b00001#5 ++ 0b1101111#7) = .ok (.jal 1 2048) := by decide

/-- R172: 0x004280E7 -/
theorem test_decode_jalr : decode (0b000000000100#12 ++ 0b00101#5 ++ 0b000#3 ++ 0b00001#5 ++ 0b1100111#7) = .ok (.jalr 1 5 0 4) := by decide

/-- R176: 0x123450B7 -/
theorem test_decode_lui : decode (0b00010010001101000101#20 ++ 0b00001#5 ++ 0b0110111#7) = .ok (.lui 1 0x12345) := by decide

/-- R177: 0x00001297 -/
theorem test_decode_auipc : decode (0b00000000000000000001#20 ++ 0b00101#5 ++ 0b0010111#7) = .ok (.auipc 5 1) := by decide

/-- R85: one word for each bullet. -/
theorem test_decode_rejects :
    decode 0x00000073 = .error .opcode ∧ decode 0x022091B3 = .error .opFunct ∧ decode 0x0210D193 = .error .opImmFunct ∧
    decode 0x00033283 = .error .loadFunct ∧ decode 0x00533023 = .error .storeFunct ∧
    decode 0x0020A863 = .error .branchFunct := by decide

/-- R83, D9: funct3 of JALR is not examined. -/
theorem test_decode_jalr_funct3 : decode 0x004290E7 = .ok (.jalr 1 5 1 4) := by decide

/-! ## Small states and what is read from an outcome -/

/-- The reset state with two registers set. -/
def regs12 (a b : Word) : State := (State.reset.writeReg 1 a).writeReg 2 b
/-- The reset state with the value and the base of the store tables. -/
def regs56 (a b : Word) : State := (State.reset.writeReg 5 a).writeReg 6 b
/-- The state at the address the branch tables use. -/
def at256 (s : State) : State := s.setPc 0x100
/-- The memory block of the load table, base in `x6`. -/
def loadBlock : State :=
  ((State.reset.writeReg 6 0x10000000).writeLE 0x10000000 0xDEADBEEF 4).writeLE 0x10000004 0x00FF807F 4
/-- Four bytes across the data and stack segments, base in `x6`. -/
def straddleBlock : State := (State.reset.writeReg 6 0x4FFFFFFE).writeLE 0x4FFFFFFE 0x44332211 4

/-- A value read from the next state, if there is one. -/
def fromNext (f : State → α) : Host.Outcome State Fault Refusal → Option α
  | .next s => some (f s)
  | .fault _ => none
  | .refused _ => none

def reg (r : RegIdx) (o : Host.Outcome State Fault Refusal) : Option Word := fromNext (fun s => s.readReg r) o
def pcOf (o : Host.Outcome State Fault Refusal) : Option Word := fromNext State.pc o
def err (o : Host.Outcome State Fault Refusal) : Option Bool := fromNext State.errMemRegion o
def dataOf (o : Host.Outcome State Fault Refusal) : Option Memory := fromNext State.dm o
def stackOf (o : Host.Outcome State Fault Refusal) : Option Memory := fromNext State.sm o
def causeOf (o : Host.Outcome State Fault Refusal) : Option HaltCause := fromNext State.haltCause o
def retiredOf (o : Host.Outcome State Fault Refusal) : Option Nat := fromNext State.retired o

/-! One step from a small state, expected values from the tables of 95_test_vectors.md (the section is named). -/

/-- 95 2.1 -/
theorem test_step_add : reg 3 (step (State.withFetchWord (regs12 0x7FFFFFFF 1) 32 0x002081B3)) = some 0x80000000 := by decide

/-- 95 2.1, R108 -/
theorem test_step_add_alias : reg 1 (step (State.withFetchWord (regs12 0x80000001 0) 32 0x001080B3)) = some 2 := by decide

/-- 95 2.1 -/
theorem test_step_sub : reg 3 (step (State.withFetchWord (regs12 5 7) 32 0x402081B3)) = some 0xFFFFFFFE := by decide

/-- 95 2.1 -/
theorem test_step_xor : reg 3 (step (State.withFetchWord (regs12 0xFF00FF00 0x0FF00FF0) 32 0x0020C1B3)) = some 0xF0F0F0F0 := by decide

/-- 95 2.1 -/
theorem test_step_or : reg 3 (step (State.withFetchWord (regs12 0xFF00FF00 0x0FF00FF0) 32 0x0020E1B3)) = some 0xFFF0FFF0 := by decide

/-- 95 2.1 -/
theorem test_step_and : reg 3 (step (State.withFetchWord (regs12 0xFF00FF00 0x0FF00FF0) 32 0x0020F1B3)) = some 0x0F000F00 := by decide

/-- 95 2.1 -/
theorem test_step_sll_masks : reg 3 (step (State.withFetchWord (regs12 1 0xFFFFFFE1) 32 0x002091B3)) = some 2 := by decide

/-- 95 2.1 -/
theorem test_step_slt_signed : reg 3 (step (State.withFetchWord (regs12 0x80000000 0x7FFFFFFF) 32 0x0020A1B3)) = some 1 := by decide

/-- 95 2.1 -/
theorem test_step_srl_masks : reg 3 (step (State.withFetchWord (regs12 0xF0000000 0x24) 32 0x0020D1B3)) = some 0x0F000000 := by decide

/-- 95 2.1 -/
theorem test_step_sra_masks : reg 3 (step (State.withFetchWord (regs12 0x80000000 0x21) 32 0x4020D1B3)) = some 0xC0000000 := by decide

/-- 95 2.2 -/
theorem test_step_mul_low : reg 3 (step (State.withFetchWord (regs12 0x12345678 0x9ABCDEF0) 32 0x022081B3)) = some 0x242D2080 := by decide

/-- 95 2.2 -/
theorem test_step_div_toward_zero : reg 3 (step (State.withFetchWord (regs12 0xFFFFFFF9 2) 32 0x0220C1B3)) = some 0xFFFFFFFD := by decide

/-- 95 2.2 -/
theorem test_step_div_by_zero : reg 3 (step (State.withFetchWord (regs12 0xFFFFFFFF 0) 32 0x0220C1B3)) = some 0 := by decide

/-- 95 2.2 -/
theorem test_step_rem_sign : reg 3 (step (State.withFetchWord (regs12 0x80000000 3) 32 0x0220E1B3)) = some 0xFFFFFFFE := by decide

/-- 95 2.2 -/
theorem test_step_rem_by_zero : reg 3 (step (State.withFetchWord (regs12 7 0) 32 0x0220E1B3)) = some 0 := by decide

/-- 95 2.3 -/
theorem test_step_addi : reg 3 (step (State.withFetchWord (regs12 0x800 0) 32 0x80008193)) = some 0 := by decide

/-- 95 2.3 -/
theorem test_step_andi : reg 3 (step (State.withFetchWord (regs12 0x12345678 0) 32 0xFF00F193)) = some 0x12345670 := by decide

/-- 95 2.3 -/
theorem test_step_ori : reg 3 (step (State.withFetchWord (regs12 0x12345678 0) 32 0x8000E193)) = some 0xFFFFFE78 := by decide

/-- 95 2.3 -/
theorem test_step_xori : reg 3 (step (State.withFetchWord (regs12 0 0) 32 0x8000C193)) = some 0xFFFFF800 := by decide

/-- 95 2.3 -/
theorem test_step_slti : reg 3 (step (State.withFetchWord (regs12 0xFFFFF800 0) 32 0x8010A193)) = some 1 := by decide

/-- 95 2.3 -/
theorem test_step_slli_top_ignored : reg 3 (step (State.withFetchWord (regs12 3 0) 32 0x40109193)) = some 6 := by decide

/-- 95 2.3 -/
theorem test_step_srli : reg 3 (step (State.withFetchWord (regs12 0xFFFFFFFF 0) 32 0x01F0D193)) = some 1 := by decide

/-- 95 2.3 -/
theorem test_step_srai : reg 3 (step (State.withFetchWord (regs12 0x80000000 0) 32 0x4040D193)) = some 0xF8000000 := by decide

/-- 95 2.4 -/
theorem test_step_lb : reg 5 (step (State.withFetchWord (loadBlock) 32 0x00530283)) = some 0xFFFFFF80 := by decide

/-- 95 2.4 -/
theorem test_step_lh_misaligned : reg 5 (step (State.withFetchWord (loadBlock) 32 0x00131283)) = some 0xFFFFADBE := by decide

/-- 95 2.4 -/
theorem test_step_lw_misaligned : reg 5 (step (State.withFetchWord (loadBlock) 32 0x00232283)) = some 0x807FDEAD := by decide

/-- 95 2.4 -/
theorem test_step_lw_same_register : reg 6 (step (State.withFetchWord (loadBlock) 32 0x00032303)) = some 0xDEADBEEF := by decide

/-- 95 2.4 -/
theorem test_step_lw_straddle : reg 5 (step (State.withFetchWord (straddleBlock) 32 0x00032283)) = some 0x44332211 := by decide

/-- 95 2.4 -/
theorem test_step_lw_refused_x0 : reg 0 (step (State.withFetchWord (State.reset) 32 0x00002003)) = some 0 ∧ err (step (State.withFetchWord (State.reset) 32 0x00002003)) = some true ∧ pcOf (step (State.withFetchWord (State.reset) 32 0x00002003)) = some 4 := by decide

/-- 95 2.4 -/
theorem test_step_lw_past_end : err (step (State.withFetchWord (regs56 0 0xFFFFFFFD) 32 0x00032283)) = some true ∧ pcOf (step (State.withFetchWord (regs56 0 0xFFFFFFFD) 32 0x00032283)) = some 4 := by decide

/-- 95 2.5 -/
theorem test_step_sb : dataOf (step (State.withFetchWord (regs56 0xA1B2C3D4 0x10000000) 32 0x005301A3)) = some [(0x10000003, 0xD4)] ∧ err (step (State.withFetchWord (regs56 0xA1B2C3D4 0x10000000) 32 0x005301A3)) = some false := by decide

/-- 95 2.5 -/
theorem test_step_sh : dataOf (step (State.withFetchWord (regs56 0xA1B2C3D4 0x10000000) 32 0x005310A3)) = some [(0x10000001, 0xD4), (0x10000002, 0xC3)] := by decide

/-- 95 2.5 -/
theorem test_step_sw_straddle : dataOf (step (State.withFetchWord (regs56 0xA1B2C3D4 0x4FFFFFFE) 32 0x00532023)) = some [(0x4FFFFFFE, 0xD4), (0x4FFFFFFF, 0xC3)] ∧ stackOf (step (State.withFetchWord (regs56 0xA1B2C3D4 0x4FFFFFFE) 32 0x00532023)) = some [(0x50000000, 0xB2), (0x50000001, 0xA1)] := by decide

/-- 95 2.5 -/
theorem test_step_sw_refused : dataOf (step (State.withFetchWord (regs56 0xA1B2C3D4 0x0FFFFFFD) 32 0x00532023)) = some [] ∧ err (step (State.withFetchWord (regs56 0xA1B2C3D4 0x0FFFFFFD) 32 0x00532023)) = some true ∧ pcOf (step (State.withFetchWord (regs56 0xA1B2C3D4 0x0FFFFFFD) 32 0x00532023)) = some 4 := by decide

/-- 95 2.6 -/
theorem test_step_beq_taken : pcOf (step (State.withFetchWord (at256 (regs12 5 5)) 32 0x00208863)) = some 0x110 := by decide

/-- 95 2.6 -/
theorem test_step_bne_not_taken : pcOf (step (State.withFetchWord (at256 (regs12 5 5)) 32 0x00209863)) = some 0x104 := by decide

/-- 95 2.6 -/
theorem test_step_blt_signed : pcOf (step (State.withFetchWord (at256 (regs12 0x80000000 0x7FFFFFFF)) 32 0x0020C863)) = some 0x110 := by decide

/-- 95 2.6 -/
theorem test_step_bge_signed : pcOf (step (State.withFetchWord (at256 (regs12 0xFFFFFFFF 1)) 32 0x0020D863)) = some 0x104 := by decide

/-- 95 2.6 -/
theorem test_step_branch_wraps : pcOf (step (State.withFetchWord (at256 (regs12 0 0)) 32 0x80000063)) = some 0xFFFFF100 := by decide

/-- 95 2.7 -/
theorem test_step_jal_back : reg 1 (step (State.withFetchWord (at256 (regs12 0 0)) 32 0xFF9FF0EF)) = some 0x104 ∧ pcOf (step (State.withFetchWord (at256 (regs12 0 0)) 32 0xFF9FF0EF)) = some 0xF8 := by decide

/-- 95 2.7 -/
theorem test_step_jalr_bit0 : reg 1 (step (State.withFetchWord (at256 (regs56 0x10 0)) 32 0xFFF280E7)) = some 0x104 ∧ pcOf (step (State.withFetchWord (at256 (regs56 0x10 0)) 32 0xFFF280E7)) = some 0x0E := by decide

/-- 95 2.7 -/
theorem test_step_jalr_same_register : reg 1 (step (State.withFetchWord (at256 (regs12 0x40 0)) 32 0x000080E7)) = some 0x104 ∧ pcOf (step (State.withFetchWord (at256 (regs12 0x40 0)) 32 0x000080E7)) = some 0x40 := by decide

/-- 95 2.8 -/
theorem test_step_lui : reg 5 (step (State.withFetchWord (regs12 0 0) 32 0xFFFFF2B7)) = some 0xFFFFF000 := by decide

/-- 95 2.8 -/
theorem test_step_auipc : reg 5 (step (State.withFetchWord (at256 (regs12 0 0)) 32 0xFFFFF297)) = some 0xFFFFF100 := by decide

/-! ## Halting (40_cycle.md R101, R102, R104) and the host's port -/

/-- 95 2.9: nothing placed at the pc. -/
theorem test_halt_fetch_miss :
    causeOf (step State.reset) = some .fetchMiss ∧ pcOf (step State.reset) = some 0 ∧
    retiredOf (step State.reset) = some 0 := by decide

/-- 95 2.9: the zero word. -/
theorem test_halt_sentinel : causeOf (step (State.reset.withFetchWord 32 0)) = some .sentinel := by decide

/-- 95 2.9: ECALL elsewhere. -/
theorem test_halt_illegal :
    causeOf (step (State.reset.withFetchWord 32 0x00000073)) = some .illegal ∧
    pcOf (step (State.reset.withFetchWord 32 0x00000073)) = some 0 := by decide

/-- 95 2.9: a pc that is not a multiple of 4 finds nothing, whatever is listed there. -/
theorem test_halt_misaligned_pc :
    causeOf (step (InstrMem.write [] 2 0x00000013 |> fun m => ⟨State.reset.x, 2, m, [], [], false, .none, false, false, 0, 0⟩)) =
      some .fetchMiss := by decide

/-- R118: a halted core stays as it is. -/
theorem test_halted_stays : step (State.reset.halt .sentinel) = .next (State.reset.halt .sentinel) := rfl

/-- R37: a retiring cycle counts. -/
theorem test_step_counts : retiredOf (step (State.reset.withFetchWord 32 0x00000013)) = some 1 := by decide

/-- R204: a data line writes four little-endian bytes, zeros included. -/
theorem test_load_cell_data :
    dataOf (State.reset.loadCell 0x10000000 0x00EF00BE) = some [(0x10000000, 0xBE), (0x10000002, 0xEF)] := by decide

/-- R205: images outside the duties are refused by name. -/
theorem test_load_cell_refuses :
    (match State.reset.loadCell 2 0x13 with | .refused .imageMisaligned => true | _ => false) = true ∧
    (match State.reset.loadCell 0xFFFFFFFD 1 with | .refused .imagePastSegmentEnd => true | _ => false) = true ∧
    (match (State.reset.halt .sentinel).loadCell 0 0x13 with | .refused .imageDuringRun => true | _ => false) = true := by
  decide

/-! ## Witnesses: the hypotheses of each obligation are met -/

open Sys2Proof.Claims

theorem witness_DecodeOfEncode :
    (Instr.beq 1 2 4).wf = true ∧ (Instr.bge 31 0 4094).wf = true ∧ (Instr.blt 0 31 (-4096)).wf = true ∧
    (Instr.jal 1 (-1048576)).wf = true ∧ (Instr.jal 0 1048574).wf = true ∧ (Instr.slli 1 2 (-1)).wf = true := by decide

theorem witness_EncodeOfDecode : decode 0xFE009EE3 = .ok (.bne 1 0 (-4)) ∧ decode 0x40109193 = .ok (.slli 3 1 0x401) := by decide

theorem witness_DecodeAgreesWithOpcodeMap :
    decode 0x002081B3 = .ok (.add 3 1 2) ∧
    (⟨"ADD", 0x00000033, 0xFE00707F⟩ : OpcodeRow) ∈ opcodeRows ∧ (0x002081B3 : Word) &&& 0xFE00707F = 0x00000033 := by decide

/-- One word for each of the six bullets. -/
theorem witness_IllegalWord :
    opcodeAt 0x00000073 ∉ [0x33, 0x13, 0x03, 0x23, 0x63, 0x6F, 0x67, 0x37, 0x17] ∧
    (opcodeAt 0x022091B3 = 0x33 ∧ (funct3At 0x022091B3, funct7At 0x022091B3) ∉ opPairs) ∧
    (opcodeAt 0x0000B013 = 0x13 ∧ funct3At 0x0000B013 = 3) ∧
    (opcodeAt 0x0210D193 = 0x13 ∧ funct3At 0x0210D193 = 5 ∧ funct7At 0x0210D193 ∉ [0x00, 0x20]) ∧
    (opcodeAt 0x00033283 = 0x03 ∧ funct3At 0x00033283 ∉ [0, 1, 2]) ∧
    (opcodeAt 0x00533023 = 0x23 ∧ funct3At 0x00533023 ∉ [0, 1, 2]) ∧
    (opcodeAt 0x0020A863 = 0x63 ∧ funct3At 0x0020A863 ∉ [0, 1, 4, 5]) := by decide

theorem witness_DecodedRecordOfWord :
    opcodeAt 0xFFF08093 ∈ [0x13, 0x03, 0x67] ∧ opcodeAt 0x002081B3 ∉ [0x13, 0x03, 0x67] ∧ opcodeAt 0x00532223 = 0x23 ∧
    opcodeAt 0xFE009EE3 = 0x63 ∧ opcodeAt 0x123450B7 ∈ [0x37, 0x17] ∧ opcodeAt 0x800000EF = 0x6F := by decide

/-- The clauses of SLT and SLTI at the ends of their ranges. -/
theorem witness_SetLessThanResult :
    (0x80000000 : Word).toInt < (0x7FFFFFFF : Word).toInt ∧ (0xFFFFFFFF : Word).toInt ≤ (0xFFFFFFFF : Word).toInt ∧
    (0xFFFFF7FF : Word).toInt < (-2048 : BitVec 12).toInt ∧ (2047 : BitVec 12).toInt ≤ (0x000007FF : Word).toInt := by decide

/-- The shifted-in and the kept bits of an arithmetic shift by 31. -/
theorem witness_RegisterShiftResult :
    (0 : Nat) + (0xFFFFFFFF : Word).toNat % 32 < 32 ∧ ¬(1 + (0xFFFFFFFF : Word).toNat % 32 < 32) := by decide

/-- The three clauses of DIV and REM exclude each other: a zero divisor, the overflow pair, its two neighbours. -/
theorem witness_DivRemResult :
    (0 : Word).toInt = 0 ∧ ((0x80000000 : Word).toInt = -2 ^ 31 ∧ (0xFFFFFFFF : Word).toInt = -1) ∧
    ((0xFFFFFFFF : Word).toInt ≠ 0 ∧ ¬((0x80000001 : Word).toInt = -2 ^ 31 ∧ (0xFFFFFFFF : Word).toInt = -1)) ∧
    ((1 : Word).toInt ≠ 0 ∧ ¬((0x80000000 : Word).toInt = -2 ^ 31 ∧ (1 : Word).toInt = -1)) := by decide

theorem witness_DivideByZeroGivesZero : (regs12 0x80000000 0).readReg 2 = 0 := by decide

theorem witness_QuotientAndRemainderLaw :
    ((regs12 0xFFFFFFF9 2).readReg 2).toInt ≠ 0 ∧
    ¬(((regs12 0xFFFFFFF9 2).readReg 1).toInt = -2 ^ 31 ∧ ((regs12 0xFFFFFFF9 2).readReg 2).toInt = -1) ∧
    ((regs12 0x80000000 1).readReg 2).toInt ≠ 0 ∧
    ¬(((regs12 0x80000000 1).readReg 1).toInt = -2 ^ 31 ∧ ((regs12 0x80000000 1).readReg 2).toInt = -1) := by decide

/-- Taken and not taken, for each branch. -/
theorem witness_BranchesCompareAndMove :
    (5 : Word) = 5 ∧ (5 : Word).getLsbD 0 ≠ (4 : Word).getLsbD 0 ∧
    (0x80000000 : Word).toInt < (0x7FFFFFFF : Word).toInt ∧ ¬(0 : Word).toInt < (0 : Word).toInt ∧
    (0 : Word).toInt ≤ (0 : Word).toInt ∧ ¬(1 : Word).toInt ≤ (0xFFFFFFFF : Word).toInt := by decide

/-- The first and the last accessible address of each width. -/
theorem witness_accessible :
    Accessible ((regs56 0 0x10000000).effAddr 6 0).toNat 1 ∧ Accessible ((regs56 0 0x10000000).effAddr 6 0).toNat 4 ∧
    Accessible ((regs56 0 0).effAddr 0 (-1)).toNat 1 ∧ Accessible ((regs56 0 0).effAddr 0 (-2)).toNat 2 ∧
    Accessible ((regs56 0 0).effAddr 0 (-4)).toNat 4 := by unfold Accessible; decide

/-- Their neighbours outside: below the data segment, and past the last address. -/
theorem witness_refused :
    ¬Accessible ((regs56 0 0x10000000).effAddr 6 (-1)).toNat 1 ∧ ¬Accessible ((regs56 0 0x10000000).effAddr 6 (-1)).toNat 2 ∧
    ¬Accessible ((regs56 0 0x10000000).effAddr 6 (-1)).toNat 4 ∧ ¬Accessible ((regs56 0 0).effAddr 0 0).toNat 1 ∧
    ¬Accessible ((regs56 0 0).effAddr 0 (-1)).toNat 2 ∧ ¬Accessible ((regs56 0 0).effAddr 0 (-3)).toNat 4 := by
  unfold Accessible; decide

/-- The stored bytes and their neighbours, for a word at 0x10000000. -/
theorem witness_StoresWriteTheirBytes :
    (3 : Nat) < 4 ∧ (0x0FFFFFFF : Nat) < ((regs56 0 0x10000000).effAddr 6 0).toNat ∧
    ((regs56 0 0x10000000).effAddr 6 0).toNat + 4 ≤ 0x10000004 := by decide

theorem witness_InvariantsOfTheSource :
    (∃ t, exec (.addi 1 1 5) State.reset = .next t) ∧ State.reset.x[0] = 0 ∧
    opcodeAt (encode (.sw 1 2 0)) ∉ [0x33, 0x13, 0x17, 0x37, 0x03, 0x6F, 0x67] ∧
    opcodeAt (encode (.beq 1 2 4)) ∉ [0x33, 0x13, 0x17, 0x37, 0x03, 0x6F, 0x67] ∧
    (∃ t, exec (.sw 1 2 0) State.reset = .next t) ∧ (∃ t, exec (.jalr 1 2 0 3) State.reset = .next t) ∧
    storeOf (.lw 1 2 0) = none :=
  ⟨⟨_, rfl⟩, by decide, by decide, by decide, ⟨_, rfl⟩, ⟨_, rfl⟩, rfl⟩

theorem witness_RegisterZeroDiscardsWrites :
    destOf (.jal 0 8) = some 0 ∧ (∃ t, exec (.jal 0 8) State.reset = .next t) ∧ Refuses (.lw 0 0 0) State.reset ∧
    Instr.lw 0 0 0 ∈ [Instr.lb 0 0 0, .lh 0 0 0, .lw 0 0 0] :=
  ⟨rfl, ⟨_, rfl⟩, ⟨4, 0, 0, rfl, by unfold Accessible; decide⟩, by decide⟩

theorem witness_OnlyTheDestinationRegisterChanges :
    (∃ t, exec (.add 3 1 2) (regs12 1 2) = .next t) ∧ destOf (.add 3 1 2) ≠ some 1 ∧ destOf (.sw 1 2 0) ≠ some 1 :=
  ⟨⟨_, rfl⟩, by decide, by decide⟩

theorem witness_OnlyStoredBytesChange :
    (∃ t, exec (.sh 5 6 0) (regs56 1 0x10000000) = .next t) ∧
    (∀ n rs1 imm, storeOf (.sh 5 6 0) = some (n, rs1, imm) →
      0x10000002 < ((regs56 1 0x10000000).effAddr rs1 imm).toNat ∨
      ((regs56 1 0x10000000).effAddr rs1 imm).toNat + n ≤ 0x10000002) := by
  refine ⟨⟨_, rfl⟩, fun n rs1 imm h => .inr ?_⟩
  cases h
  decide

/-- One access refused, one not. -/
theorem witness_ErrorReportedExactlyOnRefusal :
    (∃ t, exec (.sb 1 0 0) State.reset = .next t) ∧ Refuses (.sb 1 0 0) State.reset ∧
    (∃ t, exec (.sb 1 2 0) State.reset = .next t) ∧ ¬Refuses (.sb 1 2 0) State.reset := by
  refine ⟨⟨_, rfl⟩, ⟨1, 0, 0, rfl, by unfold Accessible; decide⟩, ⟨_, rfl⟩, ?_⟩
  rintro ⟨n, rs1, imm, h, hn⟩
  cases h
  exact hn (by unfold Accessible; decide)

/-- A state and the same with another status. -/
theorem witness_StatusIsNeverRead :
    SameProgramState (State.reset.withFetchWord 32 0x13) ({ State.reset with errMemRegion := true, retired := 7 }.withFetchWord 32 0x13) ∧
    (State.reset.withFetchWord 32 0x13).halted = false ∧
    (∃ t, step (State.reset.withFetchWord 32 0x13) = .next t) ∧
    (∃ t, step ({ State.reset with errMemRegion := true, retired := 7 }.withFetchWord 32 0x13) = .next t) :=
  ⟨⟨rfl, rfl, rfl, rfl, rfl, rfl⟩, rfl, ⟨_, rfl⟩, ⟨_, rfl⟩⟩

theorem witness_BytesKeepTheLastWrite : ∀ c ∈ loadBlock.dm ++ loadBlock.sm, c.1 ≠ 0x10000008 := by decide

theorem witness_MultiByteValuesAreLittleEndian :
    Accessible (0x10000000 : Word).toNat 4 ∧ Accessible (0x4FFFFFFE : Word).toNat 4 ∧ Accessible (0xFFFFFFFC : Word).toNat 4 := by
  unfold Accessible; decide

/-- The ends of the three segments. -/
theorem witness_BytesAreRoutedByAddress :
    (0x10000000 : Nat) ≤ 0x10000000 ∧ (0x4FFFFFFF : Nat) < 0x50000000 ∧ (0x50000000 : Nat) ≤ 0x50000000 ∧
    (0xFFFFFFFF : Nat) < 2 ^ 32 ∧ (0x0FFFFFFF : Word).toNat < 0x10000000 := by decide

theorem witness_StoreThenLoadReturnsTheValue :
    ∃ t, exec (.sw 5 6 0) (regs56 0xA1B2C3D4 0x4FFFFFFE) = .next t ∧
      t.effAddr 6 0 = (regs56 0xA1B2C3D4 0x4FFFFFFE).effAddr 6 0 ∧
      Accessible ((regs56 0xA1B2C3D4 0x4FFFFFFE).effAddr 6 0).toNat 4 ∧
      Accessible ((regs56 0xA1B2C3D4 0x4FFFFFFE).effAddr 6 0).toNat 2 ∧
      Accessible ((regs56 0xA1B2C3D4 0x4FFFFFFE).effAddr 6 0).toNat 1 := by
  refine ⟨_, rfl, ?_, ?_⟩
  · decide
  · unfold Accessible; decide

theorem witness_FetchReadsTheStoredWord :
    (0x0FFFFFFE : Word).toNat % 4 ≠ 0 ∧ 0x10000000 ≤ (0x10000000 : Word).toNat ∧
    (State.reset.withFetchWord 32 0x13).instrMemWf ∧ (0, 0x13) ∈ (State.reset.withFetchWord 32 0x13).im := by decide

theorem witness_step_answers_next : ∃ t, step (State.reset.withFetchWord 32 0x002081B3) = .next t := ⟨_, rfl⟩

theorem witness_StepRunsTheDecodedInstruction :
    (State.reset.withFetchWord 32 0x002081B3).halted = false ∧
    (State.reset.withFetchWord 32 0x002081B3).ifetch (State.reset.withFetchWord 32 0x002081B3).pc = some 0x002081B3 ∧
    (0x002081B3 : Word) ≠ 0 ∧ decode 0x002081B3 = .ok (.add 3 1 2) := by decide

theorem witness_FetchMissHalts : State.reset.halted = false ∧ State.reset.ifetch State.reset.pc = none := by decide

theorem witness_SentinelHalts :
    (State.reset.withFetchWord 32 0).halted = false ∧
    (State.reset.withFetchWord 32 0).ifetch (State.reset.withFetchWord 32 0).pc = some 0 := by decide

theorem witness_IllegalWordHalts :
    (State.reset.withFetchWord 32 0x00000073).halted = false ∧
    (State.reset.withFetchWord 32 0x00000073).ifetch (State.reset.withFetchWord 32 0x00000073).pc = some 0x00000073 ∧
    (0x00000073 : Word) ≠ 0 ∧ IllegalWord 0x00000073 :=
  ⟨by decide, by decide, by decide, .inl (by decide)⟩

theorem witness_HaltedCoreStaysHalted : (State.reset.halt .illegal).halted = true := rfl

/-- A step that retires and one that halts. -/
theorem witness_StepRetiresOrHalts :
    State.reset.halted = false ∧ (∃ t, step State.reset = .next t) ∧
    (State.reset.withFetchWord 32 0x13).halted = false ∧ (∃ t, step (State.reset.withFetchWord 32 0x13) = .next t) :=
  ⟨rfl, ⟨_, rfl⟩, rfl, ⟨_, rfl⟩⟩

/-- The invariant holds of a state with a program word and data. -/
theorem witness_StepKeepsTheInvariant :
    (loadBlock.withFetchWord 32 0x00232283).Inv ∧ ∃ t, step (loadBlock.withFetchWord 32 0x00232283) = .next t :=
  ⟨by decide, ⟨_, step_of_run (i := .lw 5 6 2) rfl (by decide)⟩⟩

theorem witness_HostPortKeepsTheInvariant :
    loadBlock.Inv ∧ (∃ t, loadBlock.loadCell 0 0x13 = .next t) ∧ ∃ t, loadBlock.loadCell 0xFFFFFFFC 1 = .next t :=
  ⟨by decide, ⟨_, rfl⟩, ⟨_, rfl⟩⟩

/-- The first and the last accepted line of each segment, and their refused neighbours. -/
theorem witness_ImageLinesAreRouted :
    State.reset.retired = 0 ∧ State.reset.halted = false ∧
    ((0x0FFFFFFC : Word).toNat < 0x10000000 ∧ (0x0FFFFFFC : Word).toNat % 4 = 0) ∧
    (0x10000000 : Word).toNat + 4 ≤ 0x50000000 ∧ (0x4FFFFFFC : Word).toNat + 4 ≤ 0x50000000 ∧
    ¬(0x50000000 : Word).toNat < 0x50000000 ∧ (0xFFFFFFFC : Word).toNat + 4 ≤ 2 ^ 32 ∧
    (0x0FFFFFFF : Word).toNat % 4 ≠ 0 ∧ 0x50000000 < (0x4FFFFFFD : Word).toNat + 4 ∧
    2 ^ 32 < (0xFFFFFFFD : Word).toNat + 4 := by decide

theorem witness_ImageLinesAreRouted_during_run :
    (State.reset.halt .sentinel).halted = true ∧ State.reset.retire.retired ≠ 0 := by decide

theorem witness_PlacedWordIsFetched :
    (0xFFFFFFFF : Nat) < 2 ^ 32 ∧ fetchable State.reset.pc = true ∧ fetchable 0x0FFFFFFC = true ∧
    fetchable (State.reset.setPc 2).pc = false ∧ fetchable (State.reset.setPc 0x10000000).pc = false := by decide

end Sys2Proof.Tests
end

section
/-! The normal end of a run: which halts are one (00_scope.md R12, 60_exceptions.md R182). -/

namespace Sys2Proof.Machine

/-- A normal end is a halt with one of the two normal causes. -/
theorem State.endedNormally_iff (s : State) :
    s.endedNormally = true ↔ s.halted = true ∧ (s.haltCause = .fetchMiss ∨ s.haltCause = .sentinel) := by
  simp [State.endedNormally]

/-- A halt is a normal end exactly by its cause. -/
@[simp] theorem State.endedNormally_halt (s : State) (c : HaltCause) :
    (s.halt c).endedNormally = true ↔ c = .fetchMiss ∨ c = .sentinel := by
  simp [State.endedNormally_iff]

/-- No instruction halts the core (10_state.md R35). -/
theorem Shape.apply_halted (f : Shape) (s : State) : (f.apply s).halted = s.halted := by
  obtain ⟨-, hhalted, -⟩ := Shape.apply_kept (s := s) f
  exact hhalted

/-- Settles O49: of the four things a step of a running core can do, only the fetch miss and the sentinel halt with a normal cause;
an illegal word halts with another cause, and an executed instruction does not halt. -/
theorem normalEndIsMissOrSentinel : Obligations.NormalEndIsMissOrSentinel := by
  unfold Obligations.NormalEndIsMissOrSentinel
  intro s t hs hstep
  rcases step_cases hstep with ⟨hh, -⟩ | ⟨-, hf, rfl⟩ | ⟨-, hf, rfl⟩ | ⟨-, ⟨w, r, hf, hw, -⟩, rfl⟩ | ⟨-, w, i, hf, hw, -, rfl⟩
  · rw [hs] at hh; contradiction
  · simp [hf]
  · simp [hf]
  · simp [hf, hw]
  · simp [State.endedNormally_iff, Shape.apply_halted, hs, hf, hw]

end Sys2Proof.Machine
end

section
/-! Decoded instructions are well formed: no word carries an odd branch or JAL offset (30_encoding.md R79). -/

namespace Sys2Proof

variable {f : Fields} {i : Instr} {w : Word}

theorem decodeOp_wf (h : decodeOp f = .ok i) : i.wf = true := by
  rcases decodeOp_cases h with ⟨-, -, rfl⟩ | ⟨-, -, rfl⟩ | ⟨-, -, rfl⟩ | ⟨-, -, rfl⟩ | ⟨-, -, rfl⟩ | ⟨-, -, rfl⟩ |
    ⟨-, -, rfl⟩ | ⟨-, -, rfl⟩ | ⟨-, -, rfl⟩ | ⟨-, -, rfl⟩ | ⟨-, -, rfl⟩ | ⟨-, -, rfl⟩ <;> rfl

theorem decodeOpImm_wf (h : decodeOpImm f = .ok i) : i.wf = true := by
  rcases decodeOpImm_cases h with ⟨-, rfl⟩ | ⟨-, rfl⟩ | ⟨-, rfl⟩ | ⟨-, rfl⟩ | ⟨-, rfl⟩ | ⟨-, rfl⟩ | ⟨-, -, rfl⟩ |
    ⟨-, -, rfl⟩ <;> rfl

theorem decodeLoad_wf (h : decodeLoad f = .ok i) : i.wf = true := by
  rcases decodeLoad_cases h with ⟨-, rfl⟩ | ⟨-, rfl⟩ | ⟨-, rfl⟩ <;> rfl

theorem decodeStore_wf (h : decodeStore f = .ok i) : i.wf = true := by
  rcases decodeStore_cases h with ⟨-, rfl⟩ | ⟨-, rfl⟩ | ⟨-, rfl⟩ <;> rfl

/-- A branch is well formed when the immediate of the decoder's record is even. -/
theorem decodeBranch_wf (h : decodeBranch f = .ok i) (heven : (f.immLow 13).getLsbD 0 = false) : i.wf = true := by
  rcases decodeBranch_cases h with ⟨-, rfl⟩ | ⟨-, rfl⟩ | ⟨-, rfl⟩ | ⟨-, rfl⟩ <;> simpa [Instr.wf] using heven

/-- Whatever a word decodes to is well formed. -/
theorem decode_wf (h : decode w = .ok i) : i.wf = true := by
  rcases opcode_cases (opcodeOf w) with ho | ho | ho | ho | ho | ho | ho | ho | ho | ho
  · exact decodeOp_wf (decode_op ho ▸ h)
  · exact decodeOpImm_wf (decode_opImm ho ▸ h)
  · exact decodeLoad_wf (decode_load ho ▸ h)
  · exact decodeStore_wf (decode_store ho ▸ h)
  · refine decodeBranch_wf (decode_branch ho ▸ h) ?_
    rw [Fields.immLow, extract_signExtend_13]
    exact fieldSB_even w
  · cases (decode_jal ho).symm.trans h
    simp only [Instr.wf, fieldUJ_even, Bool.not_false]
  · cases (decode_jalr ho).symm.trans h; rfl
  · cases (decode_lui ho).symm.trans h; rfl
  · cases (decode_auipc ho).symm.trans h; rfl
  · cases (decode_other ho).symm.trans h

end Sys2Proof
end

section
/-! The parity of the pc (10_state.md R27): every sum that gives a pc has an even offset, and JALR clears bit 0. -/

namespace Sys2Proof.Machine

variable {s : State}

/-- The sum of two even words is even, the wrap at 2^32 included. -/
theorem even_add {v u : Word} (hv : v.getLsbD 0 = false) (hu : u.getLsbD 0 = false) : (v + u).getLsbD 0 = false := by
  rw [BitVec.getLsbD_add (by decide), hv, hu, BitVec.carry_zero]
  rfl

/-- Sign extension keeps bit 0. -/
theorem getLsbD_zero_signExtend {n : Nat} (imm : BitVec (n + 1)) : (imm.signExtend 32).getLsbD 0 = imm.getLsbD 0 := by
  simp only [BitVec.getLsbD_signExtend, Nat.zero_lt_succ, decide_true, Bool.true_and, if_true]

/-- The pc a shape moves to other than `pc + 4` is even: a branch's offset or a jump's target. -/
def Shape.EvenMove : Shape → Prop
  | .branch _ imm => imm.getLsbD 0 = false
  | .jump _ target => target.getLsbD 0 = false
  | _ => True

/-- A shape with an even move keeps the pc even. -/
theorem Shape.apply_pcEven {f : Shape} (hf : f.EvenMove) (hs : s.pcEven) : (f.apply s).pcEven := by
  have hnext : (s.pc + 4#32).getLsbD 0 = false := even_add_four hs
  cases f with
  | result rd v => simpa [Shape.apply, State.pcEven] using hnext
  | load w rd rs1 imm =>
    obtain ⟨-, -, -, -, -, -, hpc⟩ := s.load_kept w rd rs1 imm
    simpa [Shape.apply, State.pcEven, hpc] using hnext
  | store w rs2 rs1 imm =>
    obtain ⟨-, -, -, -, -, -, hpc⟩ := s.store_kept w rs2 rs1 imm
    simpa [Shape.apply, State.pcEven, hpc] using hnext
  | branch taken imm =>
    have himm : (imm13 imm).getLsbD 0 = false := (getLsbD_zero_signExtend imm).trans hf
    cases taken with
    | true => exact even_add hs himm
    | false => exact hnext
  | jump rd target => exact hf

/-- A well-formed instruction in a state with an even pc has an even move. -/
theorem evenMove_shapeOf {i : Instr} (hi : i.wf = true) (hs : s.pcEven) : (shapeOf s i).EvenMove := by
  cases i with
  | beq rs1 rs2 imm | bne rs1 rs2 imm | blt rs1 rs2 imm | bge rs1 rs2 imm =>
    simpa [Instr.wf, shapeOf, Shape.EvenMove] using hi
  | jal rd imm =>
    have himm : imm.getLsbD 0 = false := by simpa [Instr.wf] using hi
    exact even_add hs ((getLsbD_zero_signExtend imm).trans himm)
  | jalr rd rs1 funct3 imm => simp [shapeOf, Shape.EvenMove, State.jalrTarget]
  | _ => trivial

end Sys2Proof.Machine
end

section
/-! The error outputs (10_state.md R36): which shapes report a refused access. -/

namespace Sys2Proof.Machine

open Sys2Proof.Claims

variable (s : State)

/-- The shape makes an access that is refused. -/
def Shape.refused (s : State) : Shape → Bool
  | .load w _ rs1 imm | .store w _ rs1 imm => accessRefused (s.effAddr rs1 imm) w.bytes
  | _ => false

/-- The error bit and the pulse after a shape: as before, or raised by its refused access. -/
theorem Shape.apply_errors (f : Shape) : (f.apply s).errMemRegion = (s.errMemRegion || f.refused s) ∧
    (f.apply s).errPulse = (s.errPulse || f.refused s) := by
  cases f with
  | result rd v => simp [Shape.apply, Shape.refused, State.writeResult]
  | load w rd rs1 imm =>
    cases h : accessRefused (s.effAddr rs1 imm) w.bytes
    · simp [Shape.apply, Shape.refused, h, s.load_of_accessible h, State.writeResult]
    · simp [Shape.apply, Shape.refused, h, s.load_of_refused h, State.writeResult]
  | store w rs2 rs1 imm =>
    cases h : accessRefused (s.effAddr rs1 imm) w.bytes
    · simp [Shape.apply, Shape.refused, h, s.store_of_accessible h]
    · simp [Shape.apply, Shape.refused, h, s.store_of_refused h]
  | branch taken imm => simp [Shape.apply, Shape.refused, State.branch]
  | jump rd target => simp [Shape.apply, Shape.refused, State.jump]

variable {s} {i : Instr}

/-- An instruction with an access refuses when that access does. -/
theorem refuses_iff_of_access {n : Nat} {rs1 : RegIdx} {imm : BitVec 12} (h : accessOf i = some (n, rs1, imm)) :
    Refuses i s ↔ accessRefused (s.effAddr rs1 imm) n = true := by
  simp [Refuses, h, accessRefused_eq_true, Accessible]

/-- An instruction without an access refuses nothing. -/
theorem not_refuses_of_no_access (h : accessOf i = none) : ¬Refuses i s := by simp [Refuses, h]

/-- An instruction refuses an access exactly when its shape does. -/
theorem refused_shapeOf_iff : (shapeOf s i).refused s = true ↔ Refuses i s := by
  cases i with
  | lb | lh | lw | sb | sh | sw => exact (refuses_iff_of_access rfl).symm
  | _ => exact iff_of_false Bool.false_ne_true (not_refuses_of_no_access rfl)

/-- Settles O34: the error outputs of an instruction are those of its shape, which reports exactly a refused access. -/
theorem errorReportedExactlyOnRefusal : Obligations.ErrorReportedExactlyOnRefusal := by
  unfold Obligations.ErrorReportedExactlyOnRefusal
  intro i s t h
  obtain ⟨herr, hpulse⟩ := (shapeOf s i).apply_errors s
  rw [next_of_exec h, herr, hpulse, Bool.or_eq_true, Bool.or_eq_true, refused_shapeOf_iff]
  exact ⟨Iff.rfl, Iff.rfl⟩

end Sys2Proof.Machine
end

section
/-! The invariant of the machine, operation by operation, then over a step. -/

namespace Sys2Proof.Machine

variable {s : State}

/-- No shape leaves the segments of the data memories or their canonical form (20_memory.md R41, R53). -/
theorem Shape.apply_dataMemWf (f : Shape) (hs : s.dataMemWf) : (f.apply s).dataMemWf := by
  cases f with
  | result rd v =>
    refine State.dataMemWf_congr ?_ ?_ hs <;> simp [Shape.apply, State.writeResult]
  | load w rd rs1 imm =>
    obtain ⟨-, hdm, hsm, -⟩ := s.load_kept w rd rs1 imm
    exact State.dataMemWf_congr hdm hsm hs
  | store w rs2 rs1 imm => exact State.dataMemWf_memWrite hs _ w _
  | branch taken imm => exact hs
  | jump rd target =>
    refine State.dataMemWf_congr ?_ ?_ hs <;> simp [Shape.apply, State.jump]

/-- A well-formed instruction keeps the invariant of a running core. -/
theorem inv_apply_shapeOf {i : Instr} (hi : i.wf = true) (hrun : s.halted = false) (hs : s.Inv) :
    ((shapeOf s i).apply s).Inv := by
  obtain ⟨hzero, him, hdata, heven, hcause, -, hsticky⟩ := hs
  obtain ⟨him', hhalted', hcause', -⟩ := (shapeOf s i).apply_kept s
  obtain ⟨herr', hpulse'⟩ := (shapeOf s i).apply_errors s
  refine ⟨((shapeOf s i).apply_x_zero s).trans hzero, ?_, (shapeOf s i).apply_dataMemWf hdata,
    Shape.apply_pcEven (evenMove_shapeOf hi heven) heven, ?_, ?_, ?_⟩
  · simpa only [State.instrMemWf, him'] using him
  · rwa [hhalted', hcause']
  · simp [hhalted', hrun]
  · rw [herr', hpulse', Bool.or_eq_true, Bool.or_eq_true]
    exact Or.imp_left hsticky

/-- Lowering the pulse keeps the invariant. -/
theorem inv_beginCycle (hs : s.Inv) : s.beginCycle.Inv := by
  obtain ⟨hzero, him, hdata, heven, hcause, -⟩ := hs
  exact ⟨hzero, him, hdata, heven, hcause, fun _ => rfl, fun h => absurd h Bool.false_ne_true⟩

/-- Retirement keeps the invariant, which does not speak of the count. -/
theorem inv_retire (hs : s.Inv) : s.retire.Inv := hs

/-- A cycle that halts with a named cause keeps the invariant. -/
theorem inv_halt {c : HaltCause} (hc : c ≠ .none) (hs : s.Inv) : (s.beginCycle.halt c).Inv := by
  obtain ⟨hzero, him, hdata, heven, -⟩ := hs
  exact ⟨hzero, him, hdata, heven, iff_of_true rfl hc, fun _ => rfl, fun h => absurd h Bool.false_ne_true⟩

/-- Settles O53: a halted core stays as it is, a halting cycle names its cause and lowers the pulse, and the instruction that a
word decodes to is well formed and keeps every part of the invariant. -/
theorem stepKeepsTheInvariant : Obligations.StepKeepsTheInvariant := by
  unfold Obligations.StepKeepsTheInvariant
  intro s t hs hstep
  rcases step_cases hstep with ⟨-, rfl⟩ | ⟨-, -, rfl⟩ | ⟨-, -, rfl⟩ | ⟨-, -, rfl⟩ | ⟨hrun, w, i, -, -, hdecode, rfl⟩
  · exact hs
  · exact inv_halt (by decide) hs
  · exact inv_halt (by decide) hs
  · exact inv_halt (by decide) hs
  · exact inv_retire (inv_apply_shapeOf (decode_wf hdecode) hrun (inv_beginCycle hs))

/-- Settles O52: every list of the reset state is empty, so its invariant is a finite check. -/
theorem resetMeetsTheInvariant : Obligations.ResetMeetsTheInvariant := by
  unfold Obligations.ResetMeetsTheInvariant
  decide

end Sys2Proof.Machine
end

section
/-! The sums that make an address (10_state.md R28). -/

namespace Sys2Proof.Machine

/-- A word plus a sign-extended immediate is the exact signed sum modulo 2^32. -/
theorem toNat_add_signExtend {n : Nat} (a : Word) (imm : BitVec n) :
    ((a + imm.signExtend 32).toNat : Int) = ((a.toNat : Int) + imm.toInt) % 2 ^ 32 := by
  rw [BitVec.toNat_add, BitVec.signExtend, BitVec.toNat_ofInt]
  omega

/-- Settles O24: each address is a word plus a sign-extended immediate, or plus 4. -/
theorem addressSumsWrap : Obligations.AddressSumsWrap := by
  unfold Obligations.AddressSumsWrap
  intro s
  refine ⟨fun rs1 imm => toNat_add_signExtend _ imm, fun imm => toNat_add_signExtend _ imm,
    fun imm => toNat_add_signExtend _ imm, ?_⟩
  rw [State.pcPlus4, BitVec.toNat_add]
  rfl

end Sys2Proof.Machine
end

section
/-! The destination register of an instruction (10_state.md R21, R22, R24). -/

namespace Sys2Proof.Machine

open Sys2Proof.Claims

/-- The register a shape writes, if it writes one. -/
def Shape.dest : Shape → Option RegIdx
  | .result rd _ | .load _ rd _ _ | .jump rd _ => some rd
  | .store .. | .branch .. => none

/-- The destination of an instruction is that of its shape. -/
theorem dest_shapeOf (s : State) (i : Instr) : (shapeOf s i).dest = destOf i := by cases i <;> rfl

/-- A shape leaves every register but its destination. -/
theorem Shape.readReg_apply {f : Shape} {r : RegIdx} (s : State) (h : f.dest ≠ some r) :
    (f.apply s).readReg r = s.readReg r := by
  cases f with
  | result rd v => exact (s.readReg_writeResult rd r v).trans (if_neg fun e => h (congrArg some e.symm))
  | load w rd rs1 imm => exact s.readReg_load_ne fun e => h (congrArg some e.symm)
  | store w rs2 rs1 imm => exact s.readReg_store w rs2 rs1 r imm
  | branch taken imm => rfl
  | jump rd target => exact (s.readReg_jump rd r target).trans (if_neg fun e => h (congrArg some e.symm))

/-- Settles O32: an instruction writes the destination of its shape only. -/
theorem onlyTheDestinationRegisterChanges : Obligations.OnlyTheDestinationRegisterChanges := by
  unfold Obligations.OnlyTheDestinationRegisterChanges
  intro i s t h r hr
  rw [next_of_exec h]
  exact Shape.readReg_apply s (by rwa [dest_shapeOf])

/-- An instruction whose `rd` is 0 leaves every register: register 0 reads 0 and no other is the destination. -/
theorem registersKept_of_dest_zero {i : Instr} {s t : State} (hd : destOf i = some 0) (h : exec i s = .next t) :
    RegistersKept s t := by
  intro r
  by_cases hr : r = 0#5
  · rw [hr, State.readReg_zero, State.readReg_zero]
  · exact onlyTheDestinationRegisterChanges i s t h r fun e => hr (Option.some.inj (e.symm.trans hd))

/-- A refused load reports and moves on, whatever its destination (44_load.md R154). -/
theorem exec_load_refused {i : Instr} {s : State} {w : Width} {rd rs1 : RegIdx} {imm : BitVec 12}
    (hi : shapeOf s i = .load w rd rs1 imm) (href : Refuses i s) :
    ∃ t, exec i s = .next t ∧ t.errMemRegion = true ∧ t.pc = s.pc + 4 := by
  obtain ⟨-, -, -, -, -, -, hpc⟩ := s.load_kept w rd rs1 imm
  refine ⟨_, exec_eq_shape i s, ?_, ?_⟩
  · rw [((shapeOf s i).apply_errors s).1, refused_shapeOf_iff.2 href, Bool.or_true]
  · rw [hi]; exact hpc

/-- Settles O31: register 0 reads 0 and takes no write; an instruction whose `rd` is 0 keeps the registers, and its report of a
refused access and its move of the pc do not depend on `rd`. -/
theorem registerZeroDiscardsWrites : Obligations.RegisterZeroDiscardsWrites := by
  unfold Obligations.RegisterZeroDiscardsWrites
  refine ⟨State.readReg_zero, State.writeReg_zero, fun i s t => registersKept_of_dest_zero, ?_, ?_, ?_⟩
  · intro rs1 imm s i hi href
    simp only [List.mem_cons, List.not_mem_nil, or_false] at hi
    rcases hi with rfl | rfl | rfl <;> exact exec_load_refused rfl href
  · exact fun imm s => ⟨_, rfl, rfl⟩
  · exact fun rs1 f3 imm s => ⟨_, rfl, rfl⟩

end Sys2Proof.Machine
end

section
/-! The status is never read (10_state.md R35 to R37): every operation of an instruction, and so a step, takes states that agree on
what a program computes with to such states. -/

namespace Sys2Proof.Claims.SameProgramState

open Sys2Proof Sys2Proof.Machine

variable {s s' : State}

theorem readReg (h : SameProgramState s s') (r : RegIdx) : s'.readReg r = s.readReg r := State.readReg_congr h.x r

theorem setPc (h : SameProgramState s s') (t : Word) : SameProgramState (s.setPc t) (s'.setPc t) :=
  ⟨h.x, rfl, h.im, h.dm, h.sm, h.draws⟩

theorem advance (h : SameProgramState s s') : SameProgramState s.advance s'.advance := by
  simpa only [State.advance, State.pcPlus4, h.pc] using h.setPc (s.pc + 4)

theorem writeReg (h : SameProgramState s s') (r : RegIdx) (v : Word) :
    SameProgramState (s.writeReg r v) (s'.writeReg r v) := by
  unfold State.writeReg
  split
  · exact h
  · exact ⟨congrArg (fun x : Vector Word 32 => x.set r.toNat v r.isLt) h.x, h.pc, h.im, h.dm, h.sm, h.draws⟩

theorem writeResult (h : SameProgramState s s') (r : RegIdx) (v : Word) :
    SameProgramState (s.writeResult r v) (s'.writeResult r v) := (h.writeReg r v).advance

theorem reportMemRegion (h : SameProgramState s s') : SameProgramState s.reportMemRegion s'.reportMemRegion :=
  ⟨h.x, h.pc, h.im, h.dm, h.sm, h.draws⟩

theorem countDraw (h : SameProgramState s s') : SameProgramState s.countDraw s'.countDraw :=
  ⟨h.x, h.pc, h.im, h.dm, h.sm, congrArg (· + 1) h.draws⟩

theorem beginCycle (h : SameProgramState s s') : SameProgramState s.beginCycle s'.beginCycle :=
  ⟨h.x, h.pc, h.im, h.dm, h.sm, h.draws⟩

theorem halt (h : SameProgramState s s') (c : HaltCause) : SameProgramState (s.halt c) (s'.halt c) :=
  ⟨h.x, h.pc, h.im, h.dm, h.sm, h.draws⟩

theorem retire (h : SameProgramState s s') : SameProgramState s.retire s'.retire :=
  ⟨h.x, h.pc, h.im, h.dm, h.sm, h.draws⟩

theorem writeByte (h : SameProgramState s s') (a : Nat) (b : Byte) :
    SameProgramState (s.writeByte a b) (s'.writeByte a b) := by
  unfold State.writeByte
  cases segmentOf a with
  | instruction | data => exact ⟨h.x, h.pc, h.im, congrArg (·.write a b) h.dm, h.sm, h.draws⟩
  | stack => exact ⟨h.x, h.pc, h.im, h.dm, congrArg (·.write a b) h.sm, h.draws⟩

theorem writeLE (h : SameProgramState s s') (a : Nat) (v : Word) (n : Nat) :
    SameProgramState (s.writeLE a v n) (s'.writeLE a v n) := by
  induction n with
  | zero => exact h
  | succ n ih => exact ih.writeByte _ _

theorem effAddr (h : SameProgramState s s') (rs1 : RegIdx) (imm : BitVec 12) : s'.effAddr rs1 imm = s.effAddr rs1 imm := by
  simp only [State.effAddr, h.readReg]

theorem memRead (h : SameProgramState s s') (addr : Word) (w : Width) : s'.memRead addr w = s.memRead addr w := by
  have hbyte : ∀ a, s'.byteAt a = s.byteAt a := State.byteAt_congr h.dm h.sm
  cases w <;> simp only [State.memRead, State.readLE, hbyte]

theorem memWrite (h : SameProgramState s s') (addr : Word) (w : Width) (v : Word) :
    SameProgramState (s.memWrite addr w v) (s'.memWrite addr w v) := by
  unfold State.memWrite
  split
  · exact h.reportMemRegion
  · exact h.writeLE _ v _

theorem load (h : SameProgramState s s') (w : Width) (rd rs1 : RegIdx) (imm : BitVec 12) :
    SameProgramState (s.load w rd rs1 imm) (s'.load w rd rs1 imm) := by
  simp only [State.load, h.effAddr, h.memRead, State.invalidLoad, h.draws]
  cases s.memRead (s.effAddr rs1 imm) w with
  | some v => exact h.writeResult rd _
  | none => exact (h.reportMemRegion.writeResult rd _).countDraw

theorem store (h : SameProgramState s s') (w : Width) (rs2 rs1 : RegIdx) (imm : BitVec 12) :
    SameProgramState (s.store w rs2 rs1 imm) (s'.store w rs2 rs1 imm) := by
  simp only [State.store, h.effAddr, h.readReg]
  exact (h.memWrite _ w _).advance

theorem branch (h : SameProgramState s s') (taken : Bool) (imm : BitVec 13) :
    SameProgramState (s.branch taken imm) (s'.branch taken imm) := by
  simp only [State.branch, State.branchTarget, State.pcPlus4, h.pc]
  exact h.setPc _

theorem jump (h : SameProgramState s s') (rd : RegIdx) (target : Word) :
    SameProgramState (s.jump rd target) (s'.jump rd target) := by
  simp only [State.jump, State.pcPlus4, h.pc]
  exact (h.writeReg rd _).setPc target

/-- An instruction has the same shape in both states. -/
theorem shapeOf_eq (h : SameProgramState s s') (i : Instr) : shapeOf s' i = shapeOf s i := by
  cases i <;> simp only [shapeOf, State.jalTarget, State.jalrTarget, h.readReg, h.pc]

theorem apply (h : SameProgramState s s') (f : Shape) : SameProgramState (f.apply s) (f.apply s') := by
  cases f with
  | result rd v => exact h.writeResult rd v
  | load w rd rs1 imm => exact h.load w rd rs1 imm
  | store w rs2 rs1 imm => exact h.store w rs2 rs1 imm
  | branch taken imm => exact h.branch taken imm
  | jump rd target => exact h.jump rd target

theorem fetchDecode_eq (h : SameProgramState s s') : s'.fetchDecode = s.fetchDecode := by
  simp only [State.fetchDecode, State.ifetch, h.pc, h.im]

end Sys2Proof.Claims.SameProgramState

namespace Sys2Proof.Machine

open Sys2Proof.Claims

/-- Settles O35: both states fetch and decode the same; then both halt, or both run one shape. -/
theorem statusIsNeverRead : Obligations.StatusIsNeverRead := by
  unfold Obligations.StatusIsNeverRead
  intro s s' t t' h hs hs' hstep hstep'
  cases hf : s.fetchDecode with
  | halt c =>
    rw [step_of_halt hs hf] at hstep
    rw [step_of_halt hs' (h.fetchDecode_eq.trans hf)] at hstep'
    cases hstep; cases hstep'
    exact ⟨h.beginCycle.halt c, rfl⟩
  | run i =>
    rw [step_of_run hs hf] at hstep
    rw [step_of_run hs' (h.fetchDecode_eq.trans hf), h.beginCycle.shapeOf_eq i] at hstep'
    cases hstep; cases hstep'
    refine ⟨(h.beginCycle.apply _).retire, ?_⟩
    simp [Shape.apply_halted, hs, hs']

end Sys2Proof.Machine
end

section
/-! What every step leaves, how it ends, and the state after reset (10_state.md R33, R35, R37, R38). -/

namespace Sys2Proof.Machine

open Sys2Proof.Claims

/-- Settles O41: no alternative of a step writes the instruction memory. -/
theorem instructionMemoryIsConstant : Obligations.InstructionMemoryIsConstant := by
  unfold Obligations.InstructionMemoryIsConstant
  intro s t hstep
  rcases step_cases hstep with ⟨-, rfl⟩ | ⟨-, -, rfl⟩ | ⟨-, -, rfl⟩ | ⟨-, -, rfl⟩ | ⟨-, w, i, -, -, -, rfl⟩
  · rfl
  · rfl
  · rfl
  · rfl
  · exact ((shapeOf s.beginCycle i).apply_kept s.beginCycle).1

/-- The statements' halting state is the cycle's. -/
theorem beginCycle_halt_eq_haltedBy (s : State) (c : HaltCause) : s.beginCycle.halt c = HaltedBy s c := rfl

/-- Settles O48: a step of a running core that halts names its cause; one that executes retires and keeps the halt status. -/
theorem stepRetiresOrHalts : Obligations.StepRetiresOrHalts := by
  unfold Obligations.StepRetiresOrHalts
  intro s t hs hstep
  rcases step_cases hstep with ⟨hh, -⟩ | ⟨-, -, rfl⟩ | ⟨-, -, rfl⟩ | ⟨-, -, rfl⟩ | ⟨-, w, i, -, -, -, rfl⟩
  · rw [hs] at hh; contradiction
  · exact .inr ⟨_, by decide, beginCycle_halt_eq_haltedBy s _⟩
  · exact .inr ⟨_, by decide, beginCycle_halt_eq_haltedBy s _⟩
  · exact .inr ⟨_, by decide, beginCycle_halt_eq_haltedBy s _⟩
  · obtain ⟨-, hhalted, hcause, hretired⟩ := (shapeOf s.beginCycle i).apply_kept s.beginCycle
    exact .inl ⟨congrArg (· + 1) hretired, hhalted.trans hs, hcause⟩

/-- Settles O46: a step of a halted core answers its own state, and the codes are those of the table in R35. -/
theorem haltedCoreStaysHalted : Obligations.HaltedCoreStaysHalted := by
  unfold Obligations.HaltedCoreStaysHalted
  exact ⟨fun _ => step_of_halted, rfl, rfl, rfl, rfl⟩

/-- The registers after reset (R38), one by one. -/
theorem readReg_reset : ∀ r, State.reset.readReg r = if r = 2 then 0x7FFFFFFC else 0 := by decide

/-- The reset input gives every state the registers, the pc and the status of the reset state (70_reset_and_hazards.md R200). -/
theorem afterReset_hostReset (s : State) : AfterReset s.hostReset :=
  ⟨fun r => (State.readReg_congr (s := .reset) rfl r).trans (readReg_reset r), rfl, rfl, rfl, rfl, rfl, rfl⟩

/-- Settles O51: the reset state is that of the reset input on itself, and the reset input copies the three memories. -/
theorem resetLeavesTheStatedValues : Obligations.ResetLeavesTheStatedValues := by
  unfold Obligations.ResetLeavesTheStatedValues
  exact ⟨afterReset_hostReset State.reset, rfl, rfl, rfl, fun s => ⟨afterReset_hostReset s, rfl, rfl, rfl⟩⟩

end Sys2Proof.Machine
end

section
/-! Bytes and the values they make up (20_memory.md R44, R48, R50, R51, R53): routing by address, reading and writing in
little-endian order, and a load after a store. -/

namespace Sys2Proof.Machine

open Sys2Proof.Claims

variable {s : State}

/-! ## Routing by address (20_memory.md R41, R53) -/

theorem State.byteAt_of_data {a : Nat} (h : segmentOf a = .data) : s.byteAt a = s.dm.read a := by
  simp only [State.byteAt, h]

theorem State.byteAt_of_stack {a : Nat} (h : segmentOf a = .stack) : s.byteAt a = s.sm.read a := by
  simp only [State.byteAt, h]

theorem State.writeByte_sm_of_data {a : Nat} (h : segmentOf a = .data) (b : Byte) : (s.writeByte a b).sm = s.sm := by
  simp only [State.writeByte, h]

theorem State.writeByte_dm_of_stack {a : Nat} (h : segmentOf a = .stack) (b : Byte) : (s.writeByte a b).dm = s.dm := by
  simp only [State.writeByte, h]

/-- A byte that neither data memory lists reads 0 (R44). -/
theorem State.byteAt_of_not_listed {a : Nat} (h : ∀ c ∈ s.dm ++ s.sm, c.1 ≠ a) : s.byteAt a = 0 := by
  have hdm : s.dm.read a = 0 := Memory.read_of_not_listed fun c hc => h c (List.mem_append_left _ hc)
  have hsm : s.sm.read a = 0 := Memory.read_of_not_listed fun c hc => h c (List.mem_append_right _ hc)
  unfold State.byteAt
  cases segmentOf a with
  | instruction | data => exact hdm
  | stack => exact hsm

/-- Settles O36: read after write over the routed bytes; what no cell lists reads 0, and after reset no cell lists anything. -/
theorem bytesKeepTheLastWrite : Obligations.BytesKeepTheLastWrite := by
  unfold Obligations.BytesKeepTheLastWrite
  exact ⟨State.byteAt_writeByte, fun s a => State.byteAt_of_not_listed,
    fun a => State.byteAt_of_not_listed fun c hc => absurd hc List.not_mem_nil⟩

/-! ## The access primitives, performed or refused (20_memory.md R50, R51) -/

section Access

variable {addr : Word} {w : Width}

theorem accessRefused_of_accessible {n : Nat} (h : Accessible addr.toNat n) : accessRefused addr n = false :=
  accessRefused_eq_false.2 h

theorem State.memRead_of_accessible (h : Accessible addr.toNat w.bytes) :
    s.memRead addr w = some (s.readLE addr.toNat w) := by
  simp [State.memRead, accessRefused_of_accessible h]

theorem State.memWrite_of_accessible (h : Accessible addr.toNat w.bytes) (v : Word) :
    s.memWrite addr w v = s.writeLE addr.toNat v w.bytes := by
  simp [State.memWrite, accessRefused_of_accessible h]

theorem State.memRead_of_refused (h : accessRefused addr w.bytes = true) : s.memRead addr w = none := by
  simp [State.memRead, h]

theorem State.memWrite_of_refused (h : accessRefused addr w.bytes = true) (v : Word) :
    s.memWrite addr w v = s.reportMemRegion := by
  simp [State.memWrite, h]

/-- An access in the instruction segment is refused. -/
theorem accessRefused_of_lt (h : addr.toNat < 0x10000000) (n : Nat) : accessRefused addr n = true :=
  accessRefused_eq_true.2 fun hacc => Nat.not_le.2 h hacc.1

end Access

/-- Settles O38: the segment of the byte's own address chooses the memory; below 0x10000000 the access is refused. -/
theorem bytesAreRoutedByAddress : Obligations.BytesAreRoutedByAddress := by
  unfold Obligations.BytesAreRoutedByAddress
  refine ⟨fun s a b => ⟨fun hlo hhi => ?_, fun hlo _ => ?_⟩, fun s addr v w h => ?_⟩
  · have hseg : segmentOf a = .data := segmentOf_data.2 ⟨hlo, hhi⟩
    exact ⟨State.byteAt_of_data hseg, State.writeByte_sm_of_data hseg b⟩
  · have hseg : segmentOf a = .stack := segmentOf_stack.2 hlo
    exact ⟨State.byteAt_of_stack hseg, State.writeByte_dm_of_stack hseg b⟩
  · have href : accessRefused addr w.bytes = true := accessRefused_of_lt h _
    rw [State.memWrite_of_refused href]
    exact ⟨State.memRead_of_refused href, rfl, rfl⟩

/-- Settles O37: a performed access is `readLE` or `writeLE` at its address, whatever the alignment. -/
theorem multiByteValuesAreLittleEndian : Obligations.MultiByteValuesAreLittleEndian := by
  unfold Obligations.MultiByteValuesAreLittleEndian
  refine ⟨fun s addr h => State.memRead_of_accessible (w := .word) h,
    fun s addr h => State.memRead_of_accessible (w := .half) h, fun s addr v w h k hk => ?_⟩
  rw [State.memWrite_of_accessible h]
  exact s.byteAt_writeLE_inside addr.toNat v w.bytes k hk

/-! ## The frame of a store (45_store.md R155) -/

/-- The bytes, base register and displacement of the store a shape makes, if it makes one. -/
def Shape.stored : Shape → Option (Nat × RegIdx × BitVec 12)
  | .store w _ rs1 imm => some (w.bytes, rs1, imm)
  | .result .. | .load .. | .branch .. | .jump .. => none

/-- An instruction stores what its shape stores. -/
theorem stored_shapeOf (s : State) (i : Instr) : (shapeOf s i).stored = storeOf i := by cases i <;> rfl

/-- A shape leaves every byte outside the bytes it stores to. -/
theorem Shape.byteAt_apply {f : Shape} {a : Nat} (h : ∀ n rs1 imm, f.stored = some (n, rs1, imm) →
    a < (s.effAddr rs1 imm).toNat ∨ (s.effAddr rs1 imm).toNat + n ≤ a) : (f.apply s).byteAt a = s.byteAt a := by
  cases f with
  | result rd v => exact s.byteAt_writeReg rd v a
  | load w rd rs1 imm => exact s.byteAt_load w rd rs1 imm a
  | store w rs2 rs1 imm => exact s.byteAt_store_outside (h _ rs1 imm rfl)
  | branch taken imm => rfl
  | jump rd target => exact s.byteAt_writeReg rd s.pcPlus4 a

/-- Settles O33: an instruction changes the bytes its shape stores to and no other. -/
theorem onlyStoredBytesChange : Obligations.OnlyStoredBytesChange := by
  unfold Obligations.OnlyStoredBytesChange
  intro i s t h a ha
  rw [next_of_exec h]
  exact Shape.byteAt_apply (by rwa [stored_shapeOf])

/-! ## A load after a store (20_memory.md R61) -/

@[simp] theorem State.readLE_advance (s : State) (a : Nat) (w : Width) : s.advance.readLE a w = s.readLE a w := by
  cases w <;> rfl

/-- A word is its four bytes, the lowest last (R48). -/
theorem append_bytes (v : Word) :
    v.extractLsb' 24 8 ++ v.extractLsb' 16 8 ++ v.extractLsb' 8 8 ++ v.extractLsb' 0 8 = v.extractLsb' 0 32 := by
  have join {lo mid len : Nat} (h : mid = lo + 8) : v.extractLsb' mid len ++ v.extractLsb' lo 8 = v.extractLsb' lo (len + 8) :=
    BitVec.extractLsb'_append_extractLsb'_eq_extractLsb' h
  rw [join rfl, join rfl, join rfl]

/-- Reading back a little-endian write gives the low bits of the value. -/
theorem State.readLE_writeLE (a : Nat) (v : Word) (w : Width) :
    (s.writeLE a v w.bytes).readLE a w = v.extractLsb' 0 w.bits := by
  have hbyte (k : Nat) (hk : k < w.bytes) : (s.writeLE a v w.bytes).byteAt (a + k) = v.extractLsb' (8 * k) 8 :=
    s.byteAt_writeLE_inside a v w.bytes k hk
  have hfirst : (s.writeLE a v w.bytes).byteAt a = v.extractLsb' 0 8 := hbyte 0 (by cases w <;> decide)
  cases w with
  | byte => exact hfirst
  | half =>
    rw [State.readLE, hbyte 1 (by decide), hfirst]
    exact BitVec.extractLsb'_append_extractLsb'_eq_extractLsb' rfl
  | word =>
    rw [State.readLE, hbyte 3 (by decide), hbyte 2 (by decide), hbyte 1 (by decide), hfirst]
    exact append_bytes v

/-- A load of the width of a performed store, from the same effective address, leaves the stored bits sign-extended in its
destination. -/
theorem State.readReg_load_store {t : State} {w : Width} {rd rs2 rs1 rs1' : RegIdx} {imm imm' : BitVec 12}
    (hacc : Accessible (s.effAddr rs1 imm).toNat w.bytes) (hstore : t = s.store w rs2 rs1 imm)
    (haddr : t.effAddr rs1' imm' = s.effAddr rs1 imm) :
    (t.load w rd rs1' imm').readReg rd =
      if rd = 0 then 0 else ((s.readReg rs2).extractLsb' 0 w.bits).signExtend 32 := by
  have hperf : accessRefused (s.effAddr rs1 imm) w.bytes = false := accessRefused_of_accessible hacc
  have hvalue : t.readLE (s.effAddr rs1 imm).toNat w = (s.readReg rs2).extractLsb' 0 w.bits := by
    rw [hstore, s.store_of_accessible hperf, State.readLE_advance, State.readLE_writeLE]
  rw [t.load_of_accessible (haddr ▸ hperf), State.readReg_writeResult, if_pos rfl, haddr, hvalue]
  rfl

/-- Settles O39: the stored bits come back, and those of a word are the whole of it. -/
theorem storeThenLoadReturnsTheValue : Obligations.StoreThenLoadReturnsTheValue := by
  unfold Obligations.StoreThenLoadReturnsTheValue
  intro rd rs2 rs1 imm rs1' imm' s t haddr
  refine ⟨fun hacc h => ⟨_, rfl, ?_⟩, fun hacc h => ⟨_, rfl, ?_⟩, fun hacc h => ⟨_, rfl, ?_⟩⟩
  · have hword : (s.readReg rs2).extractLsb' 0 32 = s.readReg rs2 := BitVec.extractLsb'_eq_self
    refine (State.readReg_load_store (w := .word) hacc (next_of_exec h) haddr).trans ?_
    rw [Width.bits, hword, BitVec.signExtend_eq]
  · exact State.readReg_load_store (w := .half) hacc (next_of_exec h) haddr
  · exact State.readReg_load_store (w := .byte) hacc (next_of_exec h) haddr

end Sys2Proof.Machine
end

section
/-! Fetch, and a word placed where the step fetches (20_memory.md R45, R46, R55, log 21). -/

namespace Sys2Proof.Machine

open Sys2Proof.Claims

variable {s : State} {a : Word}

/-! ## Fetch -/

theorem State.ifetch_of_fetchable (h : fetchable a = true) : s.ifetch a = s.im.read a.toNat := if_pos h

theorem State.ifetch_of_not_fetchable (h : fetchable a = false) : s.ifetch a = none := by simp [State.ifetch, h]

/-- Settles O40: only a fetchable address is looked up, every entry of a well-formed instruction memory stands at one, and the
lookup finds the one entry there. -/
theorem fetchReadsTheStoredWord : Obligations.FetchReadsTheStoredWord := by
  unfold Obligations.FetchReadsTheStoredWord
  refine ⟨fun s a h => State.ifetch_of_not_fetchable ?_, fun s a w hwf => ?_⟩
  · rw [← Bool.not_eq_true, fetchable_iff, dataBase]
    omega
  · obtain ⟨hrising, hkeys⟩ := hwf
    cases ha : fetchable a with
    | true => rw [State.ifetch_of_fetchable ha, InstrMem.read_eq_some_iff hrising]
    | false =>
      rw [State.ifetch_of_not_fetchable ha]
      exact iff_of_false nofun fun hmem => Bool.false_ne_true (ha.symm.trans (fetchable_iff.2 (hkeys _ hmem)))

/-- Fetch after a word was stored at a fetchable address: that word there, every other address as before. -/
theorem State.ifetch_of_im_write {t : State} {w : Word} (ha : fetchable a = true) (him : t.im = s.im.write a.toNat w)
    (b : Word) : t.ifetch b = if b = a then some w else s.ifetch b := by
  have hread : t.im.read b.toNat = if b = a then some w else s.im.read b.toNat := by
    rw [him, InstrMem.read_write]
    simp only [BitVec.toNat_inj]
  by_cases hb : b = a
  · rw [if_pos hb, State.ifetch_of_fetchable (hb ▸ ha), hread, if_pos hb]
  · rw [if_neg hb, State.ifetch, hread, if_neg hb, State.ifetch]

/-! ## The placed word (log 21) -/

/-- Where a placed word goes: the pc, or 0 where the pc can hold none. -/
def State.placeAddr (s : State) : Word := if fetchable s.pc then s.pc else 0#32

@[simp] theorem State.placeFetchWord_pc (s : State) (w : Word) : (s.placeFetchWord w).pc = s.placeAddr := rfl

@[simp] theorem State.placeFetchWord_im (s : State) (w : Word) :
    (s.placeFetchWord w).im = s.im.write s.placeAddr.toNat w := rfl

theorem State.placeAddr_of_fetchable (h : fetchable s.pc = true) : s.placeAddr = s.pc := if_pos h

theorem State.placeAddr_of_not_fetchable (h : fetchable s.pc = false) : s.placeAddr = 0 := by simp [State.placeAddr, h]

/-- A word is placed where fetch can find it. -/
theorem State.fetchable_placeAddr (s : State) : fetchable s.placeAddr = true := by
  cases h : fetchable s.pc with
  | true => rwa [State.placeAddr_of_fetchable h]
  | false => rw [State.placeAddr_of_not_fetchable h]; decide

/-- Fetch after a word was placed. -/
theorem State.ifetch_placeFetchWord (s : State) (w b : Word) :
    (s.placeFetchWord w).ifetch b = if b = s.placeAddr then some w else s.ifetch b :=
  State.ifetch_of_im_write s.fetchable_placeAddr (s.placeFetchWord_im w) b

/-- Settles O56: the word is stored at the placed pc, and no field but the pc, the instruction memory and the halt status is
written. -/
theorem placedWordIsFetched : Obligations.PlacedWordIsFetched := by
  unfold Obligations.PlacedWordIsFetched
  intro s w hw
  have ht : s.withFetchWord 32 w = s.placeFetchWord (BitVec.ofNat 32 w) := by
    rw [State.withFetchWord, Nat.mod_eq_of_lt hw]
  rw [ht]
  refine ⟨rfl, rfl, ?_, ?_, State.placeAddr_of_fetchable, State.placeAddr_of_not_fetchable, State.readReg_congr rfl,
    State.byteAt_congr rfl rfl, rfl, rfl, rfl, rfl⟩
  · exact (s.ifetch_placeFetchWord _ _).trans (if_pos rfl)
  · exact fun a ha => (s.ifetch_placeFetchWord _ a).trans (if_neg ha)

end Sys2Proof.Machine
end

section
/-! A decoded word is the encoding of its instruction (30_encoding.md R88): each selection inside an opcode keeps every field
of the decoder's record as an operand, and a word is put together again from its fields. -/

namespace Sys2Proof

variable {f : Fields} {i : Instr} {w : Word}

/-! ## The operand field in the decoder's record (R79) -/

section Record

variable (op f7 : BitVec 7) (rd rs1 rs2 : RegIdx) (f3 : BitVec 3)

@[simp] theorem Fields.immLow_12 (v : BitVec 12) : (Fields.mk op rd rs1 rs2 f3 f7 (v.signExtend 32)).immLow 12 = v :=
  extract_signExtend_12 v

@[simp] theorem Fields.immLow_13 (v : BitVec 13) : (Fields.mk op rd rs1 rs2 f3 f7 (v.signExtend 32)).immLow 13 = v :=
  extract_signExtend_13 v

/-- The `top` and the amount of a shift (R72). -/
@[simp] theorem Fields.top_of_shift (t : BitVec 7) (sh : BitVec 5) :
    (Fields.mk op rd rs1 rs2 f3 f7 ((t ++ sh : BitVec 12).signExtend 32)).top = t :=
  (extract_top _).trans (top_append t sh).1

@[simp] theorem Fields.immLow_of_shift (t : BitVec 7) (sh : BitVec 5) :
    (Fields.mk op rd rs1 rs2 f3 f7 ((t ++ sh : BitVec 12).signExtend 32)).immLow 5 = sh :=
  (extract_shiftAmount _).trans (top_append t sh).2

end Record

/-- The `top` and the amount are the two parts of the immediate field (R72). -/
theorem Fields.top_append_immLow (f : Fields) : (f.top ++ f.immLow 5 : BitVec 12) = f.immLow 12 :=
  BitVec.extractLsb'_append_extractLsb'_eq_extractLsb' rfl

/-! ## Encoding what a selection answers -/

theorem encode_of_decodeOp (h : decodeOp f = .ok i) : encode i = packR f.funct7 f.rs2 f.rs1 f.funct3 f.rd 0x33#7 := by
  rcases decodeOp_cases h with ⟨h3, h7, rfl⟩ | ⟨h3, h7, rfl⟩ | ⟨h3, h7, rfl⟩ | ⟨h3, h7, rfl⟩ | ⟨h3, h7, rfl⟩ | ⟨h3, h7, rfl⟩ |
    ⟨h3, h7, rfl⟩ | ⟨h3, h7, rfl⟩ | ⟨h3, h7, rfl⟩ | ⟨h3, h7, rfl⟩ | ⟨h3, h7, rfl⟩ | ⟨h3, h7, rfl⟩ <;> rw [h3, h7, encode]

theorem encode_of_decodeOpImm (h : decodeOpImm f = .ok i) : encode i = packI (f.immLow 12) f.rs1 f.funct3 f.rd 0x13#7 := by
  rcases decodeOpImm_cases h with ⟨h3, rfl⟩ | ⟨h3, rfl⟩ | ⟨h3, rfl⟩ | ⟨h3, rfl⟩ | ⟨h3, rfl⟩ | ⟨h3, rfl⟩ |
    ⟨h3, htop, rfl⟩ | ⟨h3, htop, rfl⟩
  iterate 6 · rw [h3, encode]
  iterate 2 · rw [h3, encode, ← htop, Fields.top_append_immLow]

theorem encode_of_decodeLoad (h : decodeLoad f = .ok i) : encode i = packI (f.immLow 12) f.rs1 f.funct3 f.rd 0x03#7 := by
  rcases decodeLoad_cases h with ⟨h3, rfl⟩ | ⟨h3, rfl⟩ | ⟨h3, rfl⟩ <;> rw [h3, encode]

theorem encode_of_decodeStore (h : decodeStore f = .ok i) : encode i = packS (f.immLow 12) f.rs2 f.rs1 f.funct3 0x23#7 := by
  rcases decodeStore_cases h with ⟨h3, rfl⟩ | ⟨h3, rfl⟩ | ⟨h3, rfl⟩ <;> rw [h3, encode]

theorem encode_of_decodeBranch (h : decodeBranch f = .ok i) :
    encode i = packSB (f.immLow 13) f.rs2 f.rs1 f.funct3 0x63#7 := by
  rcases decodeBranch_cases h with ⟨h3, rfl⟩ | ⟨h3, rfl⟩ | ⟨h3, rfl⟩ | ⟨h3, rfl⟩ <;> rw [h3, encode]

/-- Decoding loses no bit of the word. -/
theorem encode_of_decode (h : decode w = .ok i) : encode i = w := by
  rcases opcode_cases (opcodeOf w) with ho | ho | ho | ho | ho | ho | ho | ho | ho | ho
  · rw [encode_of_decodeOp (decode_op ho ▸ h), ← ho, packR_of_fields]
  · rw [encode_of_decodeOpImm (decode_opImm ho ▸ h), Fields.immLow_12, ← ho, packI_of_fields]
  · rw [encode_of_decodeLoad (decode_load ho ▸ h), Fields.immLow_12, ← ho, packI_of_fields]
  · rw [encode_of_decodeStore (decode_store ho ▸ h), Fields.immLow_12, ← ho, packS_of_fields]
  · rw [encode_of_decodeBranch (decode_branch ho ▸ h), Fields.immLow_13, ← ho, packSB_of_fields]
  · cases (decode_jal ho).symm.trans h
    rw [encode, ← ho, packUJ_of_fields]
  · cases (decode_jalr ho).symm.trans h
    rw [encode, ← ho, packI_of_fields]
  · cases (decode_lui ho).symm.trans h
    rw [encode, ← ho, packU_of_fields]
  · cases (decode_auipc ho).symm.trans h
    rw [encode, ← ho, packU_of_fields]
  · cases (decode_other ho).symm.trans h

/-- Settles O2: `encode` packs every field the decoder reads at the bits it was read from. -/
theorem encodeOfDecode : Obligations.EncodeOfDecode := by
  unfold Obligations.EncodeOfDecode
  exact fun w i h => ⟨encode_of_decode h, decode_wf h⟩

end Sys2Proof
end

section
/-! Decoding an encoded word (30_encoding.md R88): what the decoder makes of a packed word, format by format and opcode by
opcode, and the round trip. -/

namespace Sys2Proof

section Packed

variable (f7 : BitVec 7) (rs2 rs1 rd : RegIdx) (f3 : BitVec 3) (imm12 : BitVec 12) (imm13 : BitVec 13) (imm21 : BitVec 21)

theorem decode_packR_op : decode (packR f7 rs2 rs1 f3 rd 0x33#7) = decodeOp ⟨0x33#7, rd, rs1, rs2, f3, f7, 0#32⟩ := by
  rw [decode_op (opcodeOf_packR ..), rdOf_packR, rs1Of_packR, rs2Of_packR, funct3Of_packR, funct7Of_packR]

theorem decode_packI_opImm : decode (packI imm12 rs1 f3 rd 0x13#7) =
    decodeOpImm ⟨0x13#7, rd, rs1, 0#5, f3, 0#7, imm12.signExtend 32⟩ := by
  rw [decode_opImm (opcodeOf_packI ..), rdOf_packI, rs1Of_packI, funct3Of_packI, fieldI_packI]

theorem decode_packI_load : decode (packI imm12 rs1 f3 rd 0x03#7) =
    decodeLoad ⟨0x03#7, rd, rs1, 0#5, f3, 0#7, imm12.signExtend 32⟩ := by
  rw [decode_load (opcodeOf_packI ..), rdOf_packI, rs1Of_packI, funct3Of_packI, fieldI_packI]

/-- The record's `rd` and `funct7` hold the two parts of the immediate; no store reads them. -/
theorem decode_packS_store : ∃ rd f7, decode (packS imm12 rs2 rs1 f3 0x23#7) =
    decodeStore ⟨0x23#7, rd, rs1, rs2, f3, f7, imm12.signExtend 32⟩ := by
  have h := decode_store (opcodeOf_packS rs2 rs1 f3 0x23#7 imm12)
  rw [rs1Of_packS, rs2Of_packS, funct3Of_packS, fieldS_packS] at h
  exact ⟨_, _, h⟩

/-- The record's `rd` and `funct7` hold parts of the offset; no branch reads them. -/
theorem decode_packSB_branch (heven : imm13.getLsbD 0 = false) : ∃ rd f7, decode (packSB imm13 rs2 rs1 f3 0x63#7) =
    decodeBranch ⟨0x63#7, rd, rs1, rs2, f3, f7, imm13.signExtend 32⟩ := by
  have h := decode_branch (opcodeOf_packSB rs2 rs1 f3 0x63#7 imm13)
  rw [rs1Of_packSB, rs2Of_packSB, funct3Of_packSB, fieldSB_packSB _ _ _ _ _ heven] at h
  exact ⟨_, _, h⟩

end Packed

/-- The round trip: the selection inside each opcode finds the instruction again by the constants its encoding packs. -/
theorem decode_encode {i : Instr} (hwf : i.wf = true) : decode (encode i) = .ok i := by
  cases i with
  | add rd rs1 rs2 | sub rd rs1 rs2 | xor rd rs1 rs2 | or rd rs1 rs2 | and rd rs1 rs2 | sll rd rs1 rs2 | slt rd rs1 rs2
  | srl rd rs1 rs2 | sra rd rs1 rs2 | mul rd rs1 rs2 | div rd rs1 rs2 | rem rd rs1 rs2 =>
    exact decode_packR_op _ rs2 rs1 rd _
  | addi rd rs1 imm | andi rd rs1 imm | ori rd rs1 imm | xori rd rs1 imm | slti rd rs1 imm | slli rd rs1 imm =>
    exact (decode_packI_opImm rs1 rd _ imm).trans (by simp [decodeOpImm])
  | srli rd rs1 shamt | srai rd rs1 shamt =>
    exact (decode_packI_opImm rs1 rd _ (_ ++ shamt)).trans (by simp [decodeOpImm])
  | lb rd rs1 imm | lh rd rs1 imm | lw rd rs1 imm =>
    exact (decode_packI_load rs1 rd _ imm).trans (by simp [decodeLoad])
  | sb rs2 rs1 imm | sh rs2 rs1 imm | sw rs2 rs1 imm =>
    obtain ⟨_, _, h⟩ := decode_packS_store rs2 rs1 _ imm
    exact h.trans (by simp [decodeStore])
  | beq rs1 rs2 imm | bne rs1 rs2 imm | blt rs1 rs2 imm | bge rs1 rs2 imm =>
    obtain ⟨_, _, h⟩ := decode_packSB_branch rs2 rs1 _ imm (by simpa [Instr.wf] using hwf)
    exact h.trans (by simp [decodeBranch])
  | jal rd imm =>
    rw [encode, decode_jal (opcodeOf_packUJ ..), rdOf_packUJ, fieldUJ_packUJ _ _ _ (by simpa [Instr.wf] using hwf)]
  | jalr rd rs1 funct3 imm =>
    rw [encode, decode_jalr (opcodeOf_packI ..), rdOf_packI, rs1Of_packI, funct3Of_packI, fieldI_packI]
  | lui rd imm20 => rw [encode, decode_lui (opcodeOf_packU ..), rdOf_packU, fieldU_packU]
  | auipc rd imm20 => rw [encode, decode_auipc (opcodeOf_packU ..), rdOf_packU, fieldU_packU]

/-- Settles O1: the fields of a packed word are those that were packed, and each opcode's selection answers its instruction. -/
theorem decodeOfEncode : Obligations.DecodeOfEncode := by
  unfold Obligations.DecodeOfEncode
  exact fun _ => decode_encode

end Sys2Proof
end

section
/-! The words the decoder rejects (30_encoding.md R85): what each selection rejects, by the values of funct3, and of funct7 or
the `top` where it reads one. -/

namespace Sys2Proof

open Sys2Proof.Claims

variable {f : Fields} {w : Word}

/-- The eight values of funct3. -/
theorem funct3_cases (v : BitVec 3) :
    v = 0#3 ∨ v = 1#3 ∨ v = 2#3 ∨ v = 3#3 ∨ v = 4#3 ∨ v = 5#3 ∨ v = 6#3 ∨ v = 7#3 := by
  revert v; decide

theorem toNat_eq_iff {n k : Nat} {v : BitVec n} (hk : k < 2 ^ n) : v.toNat = k ↔ v = BitVec.ofNat n k := by
  rw [← BitVec.toNat_inj, BitVec.toNat_ofNat, Nat.mod_eq_of_lt hk]

theorem decodeOp_rejects_iff : (∃ r, decodeOp f = .error r) ↔ (f.funct3.toNat, f.funct7.toNat) ∉ opPairs := by
  rcases funct3_cases f.funct3 with h | h | h | h | h | h | h | h <;> simp [decodeOp, opPairs, h, toNat_eq_iff]
  -- every funct3 but 3 reads funct7
  all_goals split_ifs <;> simp_all

theorem decodeOpImm_rejects_iff : (∃ r, decodeOpImm f = .error r) ↔
    f.funct3.toNat = 3 ∨ (f.funct3.toNat = 5 ∧ f.top.toNat ∉ [0x00, 0x20]) := by
  rcases funct3_cases f.funct3 with h | h | h | h | h | h | h | h <;> simp [decodeOpImm, h]
  -- funct3 = 5 reads the `top`
  split_ifs <;> simp_all [toNat_eq_iff]

theorem decodeLoad_rejects_iff : (∃ r, decodeLoad f = .error r) ↔ f.funct3.toNat ∉ [0, 1, 2] := by
  rcases funct3_cases f.funct3 with h | h | h | h | h | h | h | h <;> simp [decodeLoad, h]

theorem decodeStore_rejects_iff : (∃ r, decodeStore f = .error r) ↔ f.funct3.toNat ∉ [0, 1, 2] := by
  rcases funct3_cases f.funct3 with h | h | h | h | h | h | h | h <;> simp [decodeStore, h]

theorem decodeBranch_rejects_iff : (∃ r, decodeBranch f = .error r) ↔ f.funct3.toNat ∉ [0, 1, 4, 5] := by
  rcases funct3_cases f.funct3 with h | h | h | h | h | h | h | h <;> simp [decodeBranch, h]

/-! ## The bullets of R85, opcode by opcode -/

theorem opcodeAt_eq (w : Word) : opcodeAt w = (opcodeOf w).toNat := rfl

theorem funct3At_eq (w : Word) : funct3At w = (funct3Of w).toNat := rfl

theorem funct7At_eq (w : Word) : funct7At w = (funct7Of w).toNat := rfl

/-- A slice of a slice. -/
theorem extractLsb'_extractLsb' {n lo len lo' len' : Nat} (v : BitVec n) (h : lo' + len' ≤ len) :
    (v.extractLsb' lo len).extractLsb' lo' len' = v.extractLsb' (lo + lo') len' := by
  ext k hk
  simp [show lo' + k < len by omega, Nat.add_assoc]

/-- The record's `top` stands where funct7 stands in the word (R72, R82). -/
theorem top_of_fieldI (op f7 : BitVec 7) (rd rs1 rs2 : RegIdx) (f3 : BitVec 3) (w : Word) :
    (Fields.mk op rd rs1 rs2 f3 f7 ((fieldI w).signExtend 32)).top = funct7Of w :=
  (extract_top (fieldI w)).trans (extractLsb'_extractLsb' w (by decide))

/-- A word of no format has none of the nine opcodes (R77). -/
theorem opcodeAt_of_formatOf_none (h : formatOf (opcodeOf w) = .none) :
    opcodeAt w ∉ [0x33, 0x13, 0x03, 0x23, 0x63, 0x6F, 0x67, 0x37, 0x17] := by
  intro hmem
  simp [opcodeAt_eq, toNat_eq_iff] at hmem
  rcases hmem with ho | ho | ho | ho | ho | ho | ho | ho | ho <;> simp [ho, formatOf] at h

/-- Settles O4: at each of the nine opcodes the bullet of that opcode says what its selection rejects, and any other opcode is
rejected as such. -/
theorem rejectedWordsAreTheListed : Obligations.RejectedWordsAreTheListed := by
  unfold Obligations.RejectedWordsAreTheListed
  intro w
  rcases opcode_cases (opcodeOf w) with ho | ho | ho | ho | ho | ho | ho | ho | ho | ho
  · rw [decode_op ho, decodeOp_rejects_iff]
    simp [IllegalWord, opcodeAt_eq, funct3At_eq, funct7At_eq, ho]
  · rw [decode_opImm ho, decodeOpImm_rejects_iff, top_of_fieldI]
    simp [IllegalWord, opcodeAt_eq, funct3At_eq, funct7At_eq, ho]
  · rw [decode_load ho, decodeLoad_rejects_iff]
    simp [IllegalWord, opcodeAt_eq, funct3At_eq, ho]
  · rw [decode_store ho, decodeStore_rejects_iff]
    simp [IllegalWord, opcodeAt_eq, funct3At_eq, ho]
  · rw [decode_branch ho, decodeBranch_rejects_iff]
    simp [IllegalWord, opcodeAt_eq, funct3At_eq, ho]
  · simp [decode_jal ho, IllegalWord, opcodeAt_eq, ho]
  · simp [decode_jalr ho, IllegalWord, opcodeAt_eq, ho]
  · simp [decode_lui ho, IllegalWord, opcodeAt_eq, ho]
  · simp [decode_auipc ho, IllegalWord, opcodeAt_eq, ho]
  · exact iff_of_true ⟨_, decode_other ho⟩ (.inl (opcodeAt_of_formatOf_none ho))

end Sys2Proof
end

section
/-! The rows of the opcode map (30_encoding.md R80): a word matches the row of an instruction exactly when it is the encoding of
that instruction with the operands read from the word, so exactly when it decodes to it. -/

namespace Sys2Proof

open Sys2Proof.Claims

variable {w : Word} {i : Instr} {pat : Word}

/-- The two halves of R88 in one: for a well-formed instruction `decode` and `encode` are each other's inverse. -/
theorem decode_eq_ok_iff (hwf : i.wf = true) : decode w = .ok i ↔ encode i = w :=
  ⟨encode_of_decode, fun h => h ▸ decode_encode hwf⟩

/-! ## A word is the packing of its own fields under the constants of a row -/

section Constants

variable (w : Word) (f7 : BitVec 7) (f3 : BitVec 3) (op : BitVec 7)

theorem packR_eq_self_iff : packR f7 (rs2Of w) (rs1Of w) f3 (rdOf w) op = w ↔
    opcodeOf w = op ∧ funct3Of w = f3 ∧ funct7Of w = f7 := by
  refine ⟨fun h => ?_, ?_⟩
  · rw [← h]; simp
  · rintro ⟨rfl, rfl, rfl⟩; exact packR_of_fields w

theorem packI_eq_self_iff : packI (fieldI w) (rs1Of w) f3 (rdOf w) op = w ↔ opcodeOf w = op ∧ funct3Of w = f3 := by
  refine ⟨fun h => ?_, ?_⟩
  · rw [← h]; simp
  · rintro ⟨rfl, rfl⟩; exact packI_of_fields w

/-- An immediate shift packs its `top` where format R packs funct7 and its amount where format R packs `rs2` (R72). -/
theorem packI_shift_eq_self_iff : packI (f7 ++ rs2Of w) (rs1Of w) f3 (rdOf w) op = w ↔
    opcodeOf w = op ∧ funct3Of w = f3 ∧ funct7Of w = f7 := by
  rw [← packR_eq_self_iff]
  simp only [packI, packR]

theorem packS_eq_self_iff : packS (fieldS w) (rs2Of w) (rs1Of w) f3 op = w ↔ opcodeOf w = op ∧ funct3Of w = f3 := by
  refine ⟨fun h => ?_, ?_⟩
  · rw [← h]; simp
  · rintro ⟨rfl, rfl⟩; exact packS_of_fields w

theorem packSB_eq_self_iff : packSB (fieldSB w) (rs2Of w) (rs1Of w) f3 op = w ↔ opcodeOf w = op ∧ funct3Of w = f3 := by
  refine ⟨fun h => ?_, ?_⟩
  · rw [← h]; simp
  · rintro ⟨rfl, rfl⟩; exact packSB_of_fields w

theorem packU_eq_self_iff : packU (fieldU w) (rdOf w) op = w ↔ opcodeOf w = op := by
  refine ⟨fun h => ?_, ?_⟩
  · rw [← h]; simp
  · rintro rfl; exact packU_of_fields w

theorem packUJ_eq_self_iff : packUJ (fieldUJ w) (rdOf w) op = w ↔ opcodeOf w = op := by
  refine ⟨fun h => ?_, ?_⟩
  · rw [← h]; simp
  · rintro rfl; exact packUJ_of_fields w

end Constants

/-! ## Selection by a row, format by format -/

theorem selectedBy_of_encode {mask : Word} {mk : Word → Instr} (hwf : ∀ w, (mk w).wf = true)
    (hrow : ∀ w, w &&& mask = pat ↔ encode (mk w) = w) : SelectedBy mask pat mk :=
  fun w => (hrow w).trans (decode_eq_ok_iff (hwf w)).symm

theorem selectedBy_R {mk : RegIdx → RegIdx → RegIdx → Instr} (f7 : BitVec 7) (f3 : BitVec 3)
    (hpat : pat = packR f7 0#5 0#5 f3 0#5 0x33#7)
    (hmk : ∀ rd rs1 rs2, (mk rd rs1 rs2).wf = true ∧ encode (mk rd rs1 rs2) = packR f7 rs2 rs1 f3 rd 0x33#7) :
    SelectedBy 0xFE00707F pat (operandsR mk) :=
  selectedBy_of_encode (fun _ => (hmk ..).1) fun w => by
    rw [operandsR, (hmk ..).2, hpat]
    exact (mask_opcode_funct3_funct7 w ..).trans (packR_eq_self_iff w ..).symm

theorem selectedBy_I {mk : RegIdx → RegIdx → BitVec 12 → Instr} (f3 : BitVec 3) (op : BitVec 7)
    (hpat : pat = packR 0#7 0#5 0#5 f3 0#5 op)
    (hmk : ∀ rd rs1 imm, (mk rd rs1 imm).wf = true ∧ encode (mk rd rs1 imm) = packI imm rs1 f3 rd op) :
    SelectedBy 0x0000707F pat (operandsI mk) :=
  selectedBy_of_encode (fun _ => (hmk ..).1) fun w => by
    rw [operandsI, (hmk ..).2, hpat]
    exact (mask_opcode_funct3 w ..).trans (packI_eq_self_iff w ..).symm

theorem selectedBy_shift {mk : RegIdx → RegIdx → BitVec 5 → Instr} (t : BitVec 7)
    (hpat : pat = packR t 0#5 0#5 5#3 0#5 0x13#7)
    (hmk : ∀ rd rs1 sh, (mk rd rs1 sh).wf = true ∧ encode (mk rd rs1 sh) = packI (t ++ sh) rs1 5#3 rd 0x13#7) :
    SelectedBy 0xFE00707F pat (operandsShift mk) :=
  selectedBy_of_encode (fun _ => (hmk ..).1) fun w => by
    rw [operandsShift, (hmk ..).2, hpat]
    exact (mask_opcode_funct3_funct7 w ..).trans (packI_shift_eq_self_iff w ..).symm

theorem selectedBy_S {mk : RegIdx → RegIdx → BitVec 12 → Instr} (f3 : BitVec 3)
    (hpat : pat = packR 0#7 0#5 0#5 f3 0#5 0x23#7)
    (hmk : ∀ rs2 rs1 imm, (mk rs2 rs1 imm).wf = true ∧ encode (mk rs2 rs1 imm) = packS imm rs2 rs1 f3 0x23#7) :
    SelectedBy 0x0000707F pat (operandsS mk) :=
  selectedBy_of_encode (fun _ => (hmk ..).1) fun w => by
    rw [operandsS, (hmk ..).2, hpat]
    exact (mask_opcode_funct3 w ..).trans (packS_eq_self_iff w ..).symm

/-- The offset a word carries is even, which is what a well-formed branch asks (R79). -/
theorem selectedBy_SB {mk : RegIdx → RegIdx → BitVec 13 → Instr} (f3 : BitVec 3)
    (hpat : pat = packR 0#7 0#5 0#5 f3 0#5 0x63#7)
    (hmk : ∀ rs1 rs2 imm, (mk rs1 rs2 imm).wf = !imm.getLsbD 0 ∧ encode (mk rs1 rs2 imm) = packSB imm rs2 rs1 f3 0x63#7) :
    SelectedBy 0x0000707F pat (operandsSB mk) :=
  selectedBy_of_encode (fun w => (hmk ..).1.trans (congrArg not (fieldSB_even w))) fun w => by
    rw [operandsSB, (hmk ..).2, hpat]
    exact (mask_opcode_funct3 w ..).trans (packSB_eq_self_iff w ..).symm

theorem selectedBy_U {mk : RegIdx → BitVec 20 → Instr} (op : BitVec 7) (hpat : pat = packR 0#7 0#5 0#5 0#3 0#5 op)
    (hmk : ∀ rd imm, (mk rd imm).wf = true ∧ encode (mk rd imm) = packU imm rd op) :
    SelectedBy 0x0000007F pat (operandsU mk) :=
  selectedBy_of_encode (fun _ => (hmk ..).1) fun w => by
    rw [operandsU, (hmk ..).2, hpat]
    exact (mask_opcode w ..).trans (packU_eq_self_iff w ..).symm

/-! ## The 34 rows -/

theorem selectedBy_add : SelectedBy 0xFE00707F 0x00000033 (operandsR .add) :=
  selectedBy_R 0x00#7 0#3 rfl fun _ _ _ => ⟨rfl, rfl⟩

theorem selectedBy_sub : SelectedBy 0xFE00707F 0x40000033 (operandsR .sub) :=
  selectedBy_R 0x20#7 0#3 rfl fun _ _ _ => ⟨rfl, rfl⟩

theorem selectedBy_xor : SelectedBy 0xFE00707F 0x00004033 (operandsR .xor) :=
  selectedBy_R 0x00#7 4#3 rfl fun _ _ _ => ⟨rfl, rfl⟩

theorem selectedBy_or : SelectedBy 0xFE00707F 0x00006033 (operandsR .or) :=
  selectedBy_R 0x00#7 6#3 rfl fun _ _ _ => ⟨rfl, rfl⟩

theorem selectedBy_and : SelectedBy 0xFE00707F 0x00007033 (operandsR .and) :=
  selectedBy_R 0x00#7 7#3 rfl fun _ _ _ => ⟨rfl, rfl⟩

theorem selectedBy_sll : SelectedBy 0xFE00707F 0x00001033 (operandsR .sll) :=
  selectedBy_R 0x00#7 1#3 rfl fun _ _ _ => ⟨rfl, rfl⟩

theorem selectedBy_slt : SelectedBy 0xFE00707F 0x00002033 (operandsR .slt) :=
  selectedBy_R 0x00#7 2#3 rfl fun _ _ _ => ⟨rfl, rfl⟩

theorem selectedBy_srl : SelectedBy 0xFE00707F 0x00005033 (operandsR .srl) :=
  selectedBy_R 0x00#7 5#3 rfl fun _ _ _ => ⟨rfl, rfl⟩

theorem selectedBy_sra : SelectedBy 0xFE00707F 0x40005033 (operandsR .sra) :=
  selectedBy_R 0x20#7 5#3 rfl fun _ _ _ => ⟨rfl, rfl⟩

theorem selectedBy_mul : SelectedBy 0xFE00707F 0x02000033 (operandsR .mul) :=
  selectedBy_R 0x01#7 0#3 rfl fun _ _ _ => ⟨rfl, rfl⟩

theorem selectedBy_div : SelectedBy 0xFE00707F 0x02004033 (operandsR .div) :=
  selectedBy_R 0x01#7 4#3 rfl fun _ _ _ => ⟨rfl, rfl⟩

theorem selectedBy_rem : SelectedBy 0xFE00707F 0x02006033 (operandsR .rem) :=
  selectedBy_R 0x01#7 6#3 rfl fun _ _ _ => ⟨rfl, rfl⟩

theorem selectedBy_addi : SelectedBy 0x0000707F 0x00000013 (operandsI .addi) :=
  selectedBy_I 0#3 0x13#7 rfl fun _ _ _ => ⟨rfl, rfl⟩

theorem selectedBy_andi : SelectedBy 0x0000707F 0x00007013 (operandsI .andi) :=
  selectedBy_I 7#3 0x13#7 rfl fun _ _ _ => ⟨rfl, rfl⟩

theorem selectedBy_ori : SelectedBy 0x0000707F 0x00006013 (operandsI .ori) :=
  selectedBy_I 6#3 0x13#7 rfl fun _ _ _ => ⟨rfl, rfl⟩

theorem selectedBy_xori : SelectedBy 0x0000707F 0x00004013 (operandsI .xori) :=
  selectedBy_I 4#3 0x13#7 rfl fun _ _ _ => ⟨rfl, rfl⟩

theorem selectedBy_slti : SelectedBy 0x0000707F 0x00002013 (operandsI .slti) :=
  selectedBy_I 2#3 0x13#7 rfl fun _ _ _ => ⟨rfl, rfl⟩

theorem selectedBy_slli : SelectedBy 0x0000707F 0x00001013 (operandsI .slli) :=
  selectedBy_I 1#3 0x13#7 rfl fun _ _ _ => ⟨rfl, rfl⟩

theorem selectedBy_srli : SelectedBy 0xFE00707F 0x00005013 (operandsShift .srli) :=
  selectedBy_shift 0x00#7 rfl fun _ _ _ => ⟨rfl, rfl⟩

theorem selectedBy_srai : SelectedBy 0xFE00707F 0x40005013 (operandsShift .srai) :=
  selectedBy_shift 0x20#7 rfl fun _ _ _ => ⟨rfl, rfl⟩

theorem selectedBy_lb : SelectedBy 0x0000707F 0x00000003 (operandsI .lb) :=
  selectedBy_I 0#3 0x03#7 rfl fun _ _ _ => ⟨rfl, rfl⟩

theorem selectedBy_lh : SelectedBy 0x0000707F 0x00001003 (operandsI .lh) :=
  selectedBy_I 1#3 0x03#7 rfl fun _ _ _ => ⟨rfl, rfl⟩

theorem selectedBy_lw : SelectedBy 0x0000707F 0x00002003 (operandsI .lw) :=
  selectedBy_I 2#3 0x03#7 rfl fun _ _ _ => ⟨rfl, rfl⟩

theorem selectedBy_sb : SelectedBy 0x0000707F 0x00000023 (operandsS .sb) :=
  selectedBy_S 0#3 rfl fun _ _ _ => ⟨rfl, rfl⟩

theorem selectedBy_sh : SelectedBy 0x0000707F 0x00001023 (operandsS .sh) :=
  selectedBy_S 1#3 rfl fun _ _ _ => ⟨rfl, rfl⟩

theorem selectedBy_sw : SelectedBy 0x0000707F 0x00002023 (operandsS .sw) :=
  selectedBy_S 2#3 rfl fun _ _ _ => ⟨rfl, rfl⟩

theorem selectedBy_beq : SelectedBy 0x0000707F 0x00000063 (operandsSB .beq) :=
  selectedBy_SB 0#3 rfl fun _ _ _ => ⟨rfl, rfl⟩

theorem selectedBy_bne : SelectedBy 0x0000707F 0x00001063 (operandsSB .bne) :=
  selectedBy_SB 1#3 rfl fun _ _ _ => ⟨rfl, rfl⟩

theorem selectedBy_blt : SelectedBy 0x0000707F 0x00004063 (operandsSB .blt) :=
  selectedBy_SB 4#3 rfl fun _ _ _ => ⟨rfl, rfl⟩

theorem selectedBy_bge : SelectedBy 0x0000707F 0x00005063 (operandsSB .bge) :=
  selectedBy_SB 5#3 rfl fun _ _ _ => ⟨rfl, rfl⟩

theorem selectedBy_jal : SelectedBy 0x0000007F 0x0000006F (fun w => .jal (w.extractLsb 11 7)
    (w.extractLsb 31 31 ++ w.extractLsb 19 12 ++ w.extractLsb 20 20 ++ w.extractLsb 30 21 ++ 0#1)) :=
  selectedBy_of_encode (fun w => congrArg not (fieldUJ_even w)) fun w =>
    (mask_opcode w 0x6F#7).trans (packUJ_eq_self_iff w 0x6F#7).symm

theorem selectedBy_jalr : SelectedBy 0x0000007F 0x00000067 (fun w =>
    .jalr (w.extractLsb 11 7) (w.extractLsb 19 15) (w.extractLsb 14 12) (w.extractLsb 31 20)) :=
  selectedBy_of_encode (fun _ => rfl) fun w =>
    (mask_opcode w 0x67#7).trans (((packI_eq_self_iff w (funct3Of w) 0x67#7).trans (and_iff_left rfl)).symm)

theorem selectedBy_lui : SelectedBy 0x0000007F 0x00000037 (operandsU .lui) :=
  selectedBy_U 0x37#7 rfl fun _ _ => ⟨rfl, rfl⟩

theorem selectedBy_auipc : SelectedBy 0x0000007F 0x00000017 (operandsU .auipc) :=
  selectedBy_U 0x17#7 rfl fun _ _ => ⟨rfl, rfl⟩

end Sys2Proof
end

section
/-! The decoder and the opcode map (30_encoding.md R80). -/

namespace Sys2Proof

open Sys2Proof.Claims

/-- Every instruction is encoded under the row of its mnemonic. -/
theorem encodesRow : ∀ i, Laws.EncodesRow.Statement i
  | .add .. => Laws.EncodesRow.add ..
  | .sub .. => Laws.EncodesRow.sub ..
  | .xor .. => Laws.EncodesRow.xor ..
  | .or .. => Laws.EncodesRow.or ..
  | .and .. => Laws.EncodesRow.and ..
  | .sll .. => Laws.EncodesRow.sll ..
  | .slt .. => Laws.EncodesRow.slt ..
  | .srl .. => Laws.EncodesRow.srl ..
  | .sra .. => Laws.EncodesRow.sra ..
  | .mul .. => Laws.EncodesRow.mul ..
  | .div .. => Laws.EncodesRow.div ..
  | .rem .. => Laws.EncodesRow.rem ..
  | .addi .. => Laws.EncodesRow.addi ..
  | .andi .. => Laws.EncodesRow.andi ..
  | .ori .. => Laws.EncodesRow.ori ..
  | .xori .. => Laws.EncodesRow.xori ..
  | .slti .. => Laws.EncodesRow.slti ..
  | .slli .. => Laws.EncodesRow.slli ..
  | .srli .. => Laws.EncodesRow.srli ..
  | .srai .. => Laws.EncodesRow.srai ..
  | .lb .. => Laws.EncodesRow.lb ..
  | .lh .. => Laws.EncodesRow.lh ..
  | .lw .. => Laws.EncodesRow.lw ..
  | .sb .. => Laws.EncodesRow.sb ..
  | .sh .. => Laws.EncodesRow.sh ..
  | .sw .. => Laws.EncodesRow.sw ..
  | .beq .. => Laws.EncodesRow.beq ..
  | .bne .. => Laws.EncodesRow.bne ..
  | .blt .. => Laws.EncodesRow.blt ..
  | .bge .. => Laws.EncodesRow.bge ..
  | .jal .. => Laws.EncodesRow.jal ..
  | .jalr .. => Laws.EncodesRow.jalr ..
  | .lui .. => Laws.EncodesRow.lui ..
  | .auipc .. => Laws.EncodesRow.auipc ..

/-- A word that matches the row decodes to an instruction with the row's mnemonic. -/
def OpcodeRow.Decodes (r : OpcodeRow) : Prop := ∀ w, w &&& r.mask = r.pat → ∃ i, decode w = .ok i ∧ i.mnemonic = r.mnemonic

theorem OpcodeRow.Decodes.of_selectedBy {name : String} {mask pat : Word} {mk : Word → Instr} (hsel : SelectedBy mask pat mk)
    (hname : ∀ w, (mk w).mnemonic = name) : OpcodeRow.Decodes ⟨name, pat, mask⟩ :=
  fun w hw => ⟨mk w, (hsel w).1 hw, hname w⟩

/-- Every row of the opcode map. -/
theorem opcodeRows_decode : ∀ r ∈ opcodeRows, r.Decodes := by
  simp only [opcodeRows, opcodeRowsOp, opcodeRowsOther, List.cons_append, List.nil_append, List.forall_mem_cons]
  exact ⟨
    .of_selectedBy selectedBy_add fun _ => rfl,
    .of_selectedBy selectedBy_sub fun _ => rfl,
    .of_selectedBy selectedBy_xor fun _ => rfl,
    .of_selectedBy selectedBy_or fun _ => rfl,
    .of_selectedBy selectedBy_and fun _ => rfl,
    .of_selectedBy selectedBy_sll fun _ => rfl,
    .of_selectedBy selectedBy_slt fun _ => rfl,
    .of_selectedBy selectedBy_srl fun _ => rfl,
    .of_selectedBy selectedBy_sra fun _ => rfl,
    .of_selectedBy selectedBy_mul fun _ => rfl,
    .of_selectedBy selectedBy_div fun _ => rfl,
    .of_selectedBy selectedBy_rem fun _ => rfl,
    .of_selectedBy selectedBy_addi fun _ => rfl,
    .of_selectedBy selectedBy_andi fun _ => rfl,
    .of_selectedBy selectedBy_ori fun _ => rfl,
    .of_selectedBy selectedBy_xori fun _ => rfl,
    .of_selectedBy selectedBy_slti fun _ => rfl,
    .of_selectedBy selectedBy_slli fun _ => rfl,
    .of_selectedBy selectedBy_srli fun _ => rfl,
    .of_selectedBy selectedBy_srai fun _ => rfl,
    .of_selectedBy selectedBy_lb fun _ => rfl,
    .of_selectedBy selectedBy_lh fun _ => rfl,
    .of_selectedBy selectedBy_lw fun _ => rfl,
    .of_selectedBy selectedBy_sb fun _ => rfl,
    .of_selectedBy selectedBy_sh fun _ => rfl,
    .of_selectedBy selectedBy_sw fun _ => rfl,
    .of_selectedBy selectedBy_beq fun _ => rfl,
    .of_selectedBy selectedBy_bne fun _ => rfl,
    .of_selectedBy selectedBy_blt fun _ => rfl,
    .of_selectedBy selectedBy_bge fun _ => rfl,
    .of_selectedBy selectedBy_jal fun _ => rfl,
    .of_selectedBy selectedBy_jalr fun _ => rfl,
    .of_selectedBy selectedBy_lui fun _ => rfl,
    .of_selectedBy selectedBy_auipc fun _ => rfl,
    List.forall_mem_nil _⟩

/-- No two rows have one mnemonic. -/
theorem opcodeRows_mnemonic_nodup : (opcodeRows.map OpcodeRow.mnemonic).Nodup := by decide

/-- Settles O3: a decoded word is an encoding, so it matches its row; a word of a row decodes by that row's selection; and a word
of two rows has the one mnemonic it decodes to, which names one row. -/
theorem decodeAgreesWithOpcodeMap : Obligations.DecodeAgreesWithOpcodeMap := by
  unfold Obligations.DecodeAgreesWithOpcodeMap
  refine ⟨fun w i h => encode_of_decode h ▸ encodesRow i, fun w r hr => opcodeRows_decode r hr w, ?_⟩
  intro w r hr q hq hwr hwq
  obtain ⟨i, hi, hir⟩ := opcodeRows_decode r hr w hwr
  obtain ⟨j, hj, hjq⟩ := opcodeRows_decode q hq w hwq
  cases hi.symm.trans hj
  exact List.inj_on_of_nodup_map opcodeRows_mnemonic_nodup hr hq (hir.symm.trans hjq)

end Sys2Proof
end

section
/-! The immediates of the formats (30_encoding.md R79). -/

namespace Sys2Proof

variable (w : Word)

/-! ## The immediate as a signed integer -/

theorem immOf_I_toInt : (immOf .I w).toInt = (w.extractLsb 31 20).toInt :=
  BitVec.toInt_signExtend_of_le (x := fieldI w) (by decide)

theorem immOf_S_toInt : (immOf .S w).toInt = (w.extractLsb 31 25 ++ w.extractLsb 11 7 : BitVec 12).toInt :=
  BitVec.toInt_signExtend_of_le (x := fieldS w) (by decide)

/-- The implicit zero bit doubles the field. -/
theorem immOf_SB_toInt : (immOf .SB w).toInt =
    2 * (w.extractLsb 31 31 ++ w.extractLsb 7 7 ++ w.extractLsb 30 25 ++ w.extractLsb 11 8 : BitVec 12).toInt :=
  (BitVec.toInt_signExtend_of_le (x := fieldSB w) (by decide)).trans (BitVec.toInt_append_zero (m := 1))

/-- The implicit zero bit doubles the field. -/
theorem immOf_UJ_toInt : (immOf .UJ w).toInt =
    2 * (w.extractLsb 31 31 ++ w.extractLsb 19 12 ++ w.extractLsb 20 20 ++ w.extractLsb 30 21 : BitVec 20).toInt :=
  (BitVec.toInt_signExtend_of_le (x := fieldUJ w) (by decide)).trans (BitVec.toInt_append_zero (m := 1))

/-- Twelve zero bits multiply the field by 2^12. -/
theorem immOf_U_toNat : (immOf .U w).toNat = (w.extractLsb 31 12).toNat * 4096 := by
  have h : (immOf .U w).toNat = (fieldU w).toNat <<< 12 ||| 0 := BitVec.toNat_append (fieldU w) 0#12
  rw [h, Nat.or_zero, Nat.shiftLeft_eq]; rfl

/-! ## The range of a field and of twice a field -/

theorem toInt_12_bounds (v : BitVec 12) : -2048 ≤ v.toInt ∧ v.toInt ≤ 2047 :=
  ⟨v.le_toInt, Int.lt_add_one_iff.1 v.toInt_lt⟩

theorem toInt_20_bounds (v : BitVec 20) : -524288 ≤ v.toInt ∧ v.toInt ≤ 524287 :=
  ⟨v.le_toInt, Int.lt_add_one_iff.1 v.toInt_lt⟩

/-- The shift drops every bit that the sign extension adds. -/
theorem signExtend_shiftLeft_12 (v : BitVec 20) : (v.signExtend 32) <<< 12 = v ++ 0#12 := by
  refine word_ext fun k hk => ?_
  have happ : (v ++ 0#12 : Word).getLsbD k = if k < 12 then false else v.getLsbD (k - 12) := by
    show BitVec.getLsbD (w := 20 + 12) (v ++ 0#12) k = _
    rw [BitVec.getLsbD_append, BitVec.getLsbD_zero]
  rw [happ, BitVec.getLsbD_shiftLeft, BitVec.getLsbD_signExtend]
  by_cases h : k < 12
  · simp [h]
  · simp [h, hk, show k - 12 < 20 by omega, show k - 12 < 32 by omega]

/-- Settles O6: each immediate is a sign extension, which keeps the signed value of the field, or the field before zero bits,
which multiply it. -/
theorem immediateOfEachFormat : Obligations.ImmediateOfEachFormat := by
  unfold Obligations.ImmediateOfEachFormat
  refine ⟨immOf_I_toInt, immOf_S_toInt, immOf_SB_toInt, immOf_U_toNat, immOf_UJ_toInt, fun w => ?_, signExtend_shiftLeft_12⟩
  have hI := toInt_12_bounds (w.extractLsb 31 20)
  have hS := toInt_12_bounds (w.extractLsb 31 25 ++ w.extractLsb 11 7)
  have hSB := toInt_12_bounds (w.extractLsb 31 31 ++ w.extractLsb 7 7 ++ w.extractLsb 30 25 ++ w.extractLsb 11 8)
  have hUJ := toInt_20_bounds (w.extractLsb 31 31 ++ w.extractLsb 19 12 ++ w.extractLsb 20 20 ++ w.extractLsb 30 21)
  rw [immOf_I_toInt, immOf_S_toInt, immOf_SB_toInt, immOf_UJ_toInt]
  omega

end Sys2Proof
end

section
/-! The decoder's record (30_encoding.md R77, R78): which opcodes have which format, and the fields of a word of each. -/

namespace Sys2Proof

open Sys2Proof.Claims

variable {w : Word}

theorem opcodeOf_of_opcodeAt {k : Nat} (h : opcodeAt w = k) : opcodeOf w = BitVec.ofNat 7 k := by
  rw [← h, opcodeAt_eq, BitVec.ofNat_toNat, BitVec.setWidth_eq]

/-- Format I is that of three opcodes (R77). -/
theorem formatOf_eq_I_iff : formatOf (opcodeOf w) = .I ↔ opcodeAt w ∈ [0x13, 0x03, 0x67] := by
  rcases opcode_cases (opcodeOf w) with ho | ho | ho | ho | ho | ho | ho | ho | ho | ho
  iterate 9 · rw [opcodeAt_eq, ho]; decide
  · refine iff_of_false (by simp [ho]) fun hmem => opcodeAt_of_formatOf_none ho ?_
    exact (show [0x13, 0x03, 0x67] ⊆ [0x33, 0x13, 0x03, 0x23, 0x63, 0x6F, 0x67, 0x37, 0x17] by decide) hmem

theorem fieldsOf_imm_of_format {fmt : Format} (h : formatOf (opcodeOf w) = fmt) : (fieldsOf w).imm = immOf fmt w :=
  congrArg (immOf · w) h

theorem fieldsOf_imm_of_opcode {op : Nat} {fmt : Format} (hfmt : formatOf (BitVec.ofNat 7 op) = fmt) (h : opcodeAt w = op) :
    (fieldsOf w).imm = immOf fmt w :=
  fieldsOf_imm_of_format (opcodeOf_of_opcodeAt h ▸ hfmt)

/-- Settles O7: the fields are those of the word, but for the two that format I zeroes; the immediate is that of the format. -/
theorem decodedRecordOfWord : Obligations.DecodedRecordOfWord := by
  unfold Obligations.DecodedRecordOfWord
  intro w
  refine ⟨rfl, rfl, rfl, rfl, fun h => ?_, fun h => ?_, fieldsOf_imm_of_opcode rfl, fieldsOf_imm_of_opcode rfl, fun h => ?_,
    fieldsOf_imm_of_opcode rfl⟩
  · have hI := formatOf_eq_I_iff.2 h
    exact ⟨if_pos hI, if_pos hI, fieldsOf_imm_of_format hI⟩
  · have hI := mt formatOf_eq_I_iff.1 h
    exact ⟨if_neg hI, if_neg hI⟩
  · simp only [List.mem_cons, List.not_mem_nil, or_false] at h
    rcases h with h | h <;> exact fieldsOf_imm_of_opcode rfl h

end Sys2Proof
end

section
/-! Where the formats place their fields (30_encoding.md R71 to R76): the slices that hold a part of an immediate. -/

namespace Sys2Proof

variable (rs2 rs1 rd : RegIdx) (f3 : BitVec 3) (op : BitVec 7)

/-- Every slice of an I immediate, the `top` and the amount of a shift among them (R72). -/
theorem packI_imm_slice (imm : BitVec 12) {lo len : Nat} (h : lo + len ≤ 12) :
    (packI imm rs1 f3 rd op).extractLsb' (20 + lo) len = imm.extractLsb' lo len := by
  rw [← extractLsb'_extractLsb' (len := 12) _ h]
  exact congrArg (BitVec.extractLsb' lo len) (fieldI_packI ..)

/-- Format S is format R with the two parts of the immediate at `rd` and funct7 (R73). -/
theorem packS_eq_packR (imm : BitVec 12) :
    packS imm rs2 rs1 f3 op = packR (imm.extractLsb' 5 7) rs2 rs1 f3 (imm.extractLsb' 0 5) op := rfl

/-- The four parts of a branch's offset (R74). -/
theorem packSB_imm_parts (imm : BitVec 13) :
    (packSB imm rs2 rs1 f3 op).extractLsb' 7 1 = imm.extractLsb' 11 1 ∧
    (packSB imm rs2 rs1 f3 op).extractLsb' 8 4 = imm.extractLsb' 1 4 ∧
    (packSB imm rs2 rs1 f3 op).extractLsb' 25 6 = imm.extractLsb' 5 6 ∧
    (packSB imm rs2 rs1 f3 op).extractLsb' 31 1 = imm.extractLsb' 12 1 := by
  refine ⟨?_, ?_, ?_, ?_⟩
  all_goals
    refine BitVec.eq_of_getLsbD_eq fun k hk => ?_
    simp only [BitVec.getLsbD_extractLsb', packSB_bit]
    interval_cases k <;> simp

/-- The four parts of JAL's offset (R76). -/
theorem packUJ_imm_parts (imm : BitVec 21) :
    (packUJ imm rd op).extractLsb' 12 8 = imm.extractLsb' 12 8 ∧ (packUJ imm rd op).extractLsb' 20 1 = imm.extractLsb' 11 1 ∧
    (packUJ imm rd op).extractLsb' 21 10 = imm.extractLsb' 1 10 ∧ (packUJ imm rd op).extractLsb' 31 1 = imm.extractLsb' 20 1 := by
  refine ⟨?_, ?_, ?_, ?_⟩
  all_goals
    refine BitVec.eq_of_getLsbD_eq fun k hk => ?_
    simp only [BitVec.getLsbD_extractLsb', packUJ_bit]
    interval_cases k <;> simp

/-- Sign extension keeps bit 0 of an offset, which no word carries (R79). -/
theorem immOf_SB_even (w : Word) : (immOf .SB w).getLsbD 0 = false := by
  rw [immOf, BitVec.getLsbD_signExtend, if_pos (by decide), fieldSB_even, Bool.and_false]

theorem immOf_UJ_even (w : Word) : (immOf .UJ w).getLsbD 0 = false := by
  rw [immOf, BitVec.getLsbD_signExtend, if_pos (by decide), fieldUJ_even, Bool.and_false]

/-- Settles O5: format by format, the fields that the decoder reads whole and the parts of the scattered immediates. -/
theorem formatsPlaceTheirFields : Obligations.FormatsPlaceTheirFields := by
  unfold Obligations.FormatsPlaceTheirFields
  refine ⟨fun f7 rs2 rs1 f3 rd op => ?_, fun imm rs1 f3 rd op => ?_, fun imm rs2 rs1 f3 op => ?_,
    fun imm rs2 rs1 f3 op => ?_, fun imm20 rd op => ?_, fun imm rd op => ?_⟩
  · exact ⟨opcodeOf_packR .., rdOf_packR .., funct3Of_packR .., rs1Of_packR .., rs2Of_packR .., funct7Of_packR ..⟩
  · exact ⟨opcodeOf_packI .., rdOf_packI .., funct3Of_packI .., rs1Of_packI .., fieldI_packI ..,
      packI_imm_slice (lo := 0) (len := 5) (h := by decide) .., packI_imm_slice (lo := 5) (len := 7) (h := by decide) ..⟩
  · rw [packS_eq_packR]
    exact ⟨opcodeOf_packR .., rdOf_packR .., funct3Of_packR .., rs1Of_packR .., rs2Of_packR .., funct7Of_packR ..⟩
  · obtain ⟨h11, h4_1, h10_5, h12⟩ := packSB_imm_parts rs2 rs1 f3 op imm
    exact ⟨opcodeOf_packSB .., h11, h4_1, funct3Of_packSB .., rs1Of_packSB .., rs2Of_packSB .., h10_5, h12, immOf_SB_even _⟩
  · exact ⟨opcodeOf_packU .., rdOf_packU .., fieldU_packU ..⟩
  · obtain ⟨h19_12, h11, h10_1, h20⟩ := packUJ_imm_parts rd op imm
    exact ⟨opcodeOf_packUJ .., rdOf_packUJ .., h19_12, h11, h10_1, h20, immOf_UJ_even _⟩

end Sys2Proof
end

section
/-! The cycle (40_cycle.md R100 to R104, R118): what each finding of fetch and decode makes of a step, and that every state has a
next one. -/

namespace Sys2Proof.Machine

open Sys2Proof.Claims

variable {s : State} {w : Word}

/-! ## What fetch and decode find -/

theorem State.fetchDecode_of_absent (hf : s.ifetch s.pc = none) : s.fetchDecode = .halt .fetchMiss := by
  simp only [State.fetchDecode, hf]

theorem State.fetchDecode_of_zero (hf : s.ifetch s.pc = some 0#32) : s.fetchDecode = .halt .sentinel := by
  simp [State.fetchDecode, hf]

theorem State.fetchDecode_of_rejected {r : Illegal} (hf : s.ifetch s.pc = some w) (hw : w ≠ 0#32) (hd : decode w = .error r) :
    s.fetchDecode = .halt .illegal := by
  simp only [State.fetchDecode, hf, if_neg hw, hd]

theorem State.fetchDecode_of_decoded {i : Instr} (hf : s.ifetch s.pc = some w) (hw : w ≠ 0#32) (hd : decode w = .ok i) :
    s.fetchDecode = .run i := by
  simp only [State.fetchDecode, hf, if_neg hw, hd]

/-! ## The step -/

/-- A halting cycle in the words of the statements (R118). -/
theorem step_eq_haltedBy {c : HaltCause} (hs : s.halted = false) (hf : s.fetchDecode = .halt c) :
    step s = .next (HaltedBy s c) := by
  rw [step_of_halt hs hf, beginCycle_halt_eq_haltedBy]

/-- Settles O43: nothing at the pc is the first of the cycle's three halting tests. -/
theorem fetchMissHalts : Obligations.FetchMissHalts := by
  unfold Obligations.FetchMissHalts
  exact fun s hs hf => step_eq_haltedBy hs (State.fetchDecode_of_absent hf)

/-- Settles O44: the zero word is found before anything is decoded. -/
theorem sentinelHalts : Obligations.SentinelHalts := by
  unfold Obligations.SentinelHalts
  exact fun s hs hf => step_eq_haltedBy hs (State.fetchDecode_of_zero hf)

/-- Settles O45: the decoder rejects exactly the words of R85, and a rejected word halts the cycle. -/
theorem illegalWordHalts : Obligations.IllegalWordHalts := by
  unfold Obligations.IllegalWordHalts
  intro s w hs hf hw hill
  obtain ⟨r, hd⟩ := (rejectedWordsAreTheListed w).2 hill
  exact step_eq_haltedBy hs (State.fetchDecode_of_rejected hf hw hd)

/-- Settles O42: fetch and decode find the instruction, and what `exec` answers is a next state, which retires. -/
theorem stepRunsTheDecodedInstruction : Obligations.StepRunsTheDecodedInstruction := by
  unfold Obligations.StepRunsTheDecodedInstruction
  intro s w i hs hf hw hd
  rw [step_of_run hs (State.fetchDecode_of_decoded hf hw hd), exec_eq_shape]
  rfl

/-- Settles O47: a halted core answers its own state, a halting cycle the halted one, and any other cycle that of the shape. -/
theorem everyStepAnswersNext : Obligations.EveryStepAnswersNext := by
  unfold Obligations.EveryStepAnswersNext
  intro s
  cases hs : s.halted with
  | true => exact ⟨_, step_of_halted hs⟩
  | false =>
    cases hf : s.fetchDecode with
    | halt c => exact ⟨_, step_of_halt hs hf⟩
    | run i => exact ⟨_, step_of_run hs hf⟩

end Sys2Proof.Machine
end

section
/-! The source's five invariants (40_cycle.md R117), family of instructions by family: what a branch, a store and a load of a given
shape do, and which opcodes have a destination. -/

namespace Sys2Proof.Machine

open Sys2Proof.Claims

/-! ## The writeback set (R111) -/

/-- An instruction without a destination is one whose opcode is outside the writeback set. -/
theorem destOf_eq_none_of_opcodeAt {i : Instr} (h : opcodeAt (encode i) ∉ [0x33, 0x13, 0x17, 0x37, 0x03, 0x6F, 0x67]) :
    destOf i = none := by
  cases i with
  | sb | sh | sw | beq | bne | blt | bge => rfl
  | _ => exact absurd (by simp [opcodeAt_eq, encode]) h

/-! ## Branches (46_branch.md R160) -/

/-- A branch keeps everything but the pc, and moves it as its condition says. -/
theorem branchOn_of_shape {mk : RegIdx → RegIdx → BitVec 13 → Instr} {cond : Word → Word → Prop}
    {taken : Word → Word → Bool}
    (hshape : ∀ rs1 rs2 imm s, shapeOf s (mk rs1 rs2 imm) = .branch (taken (s.readReg rs1) (s.readReg rs2)) imm)
    (hcond : ∀ a b, taken a b = true ↔ cond a b) : BranchOn mk cond := by
  intro rs1 rs2 imm s
  refine ⟨_, exec_eq_shape _ s, ?_⟩
  rw [hshape, ← hcond]
  exact ⟨fun h => if_pos h, fun h => if_neg h, fun r => rfl, ⟨rfl, fun a => rfl⟩, ⟨rfl, rfl, rfl, rfl, rfl, rfl⟩⟩

theorem isEqual_iff (a b : Word) : isEqual a b = true ↔ a = b := beq_iff_eq

theorem not_isEqual_iff (a b : Word) : (!isEqual a b) = true ↔ a ≠ b := by simp [isEqual]

theorem isLessSigned_iff (a b : Word) : isLessSigned a b = true ↔ a.toInt < b.toInt := decide_eq_true_iff

theorem not_isLessSigned_iff (a b : Word) : (!isLessSigned a b) = true ↔ b.toInt ≤ a.toInt := by simp [isLessSigned]

/-! ## JALR (47_jump.md R172) -/

theorem getLsbD_zero_jalrTarget (s : State) (rs1 : RegIdx) (imm : BitVec 12) : (s.jalrTarget rs1 imm).getLsbD 0 = false := by
  simp [State.jalrTarget]

/-! ## Stores (45_store.md R155) -/

/-- Byte `k` of a value as a number. -/
theorem toNat_byte (v : Word) (k : Nat) : (v.extractLsb' (8 * k) 8).toNat = v.toNat / 256 ^ k % 256 := by
  rw [BitVec.extractLsb'_toNat, Nat.shiftRight_eq_div_pow, Nat.pow_mul]

section Store

variable {mk : RegIdx → RegIdx → BitVec 12 → Instr} {w : Width}
  (hshape : ∀ rs2 rs1 imm s, shapeOf s (mk rs2 rs1 imm) = .store w rs2 rs1 imm)
include hshape

theorem storeResult_of_shape : StoreResult mk w.bytes := by
  intro rs2 rs1 imm s hacc
  have hstore := s.store_of_accessible (rs2 := rs2) (accessRefused_of_accessible hacc)
  obtain ⟨hx, him, hhalted, hcause, hretired, hdraws, hpc⟩ := s.store_kept w rs2 rs1 imm
  refine ⟨s.store w rs2 rs1 imm, ?_, fun k hk => ?_, fun a ha => s.byteAt_store_outside ha, him, hpc,
    State.readReg_congr hx, hhalted, hcause, ?_, ?_, hretired, hdraws⟩
  · rw [exec_eq_shape, hshape]; rfl
  · rw [hstore, State.byteAt_advance, State.byteAt_writeLE_inside _ _ _ _ _ hk, toNat_byte]
  · rw [hstore, State.advance_errMemRegion, State.writeLE_errMemRegion]
  · rw [hstore, State.advance_errPulse, State.writeLE_errPulse]

theorem storeRefused_of_shape : StoreRefused mk w.bytes := by
  intro rs2 rs1 imm s hacc
  have hstore := s.store_of_refused (rs2 := rs2) (accessRefused_eq_true.2 hacc)
  refine ⟨s.reportMemRegion.advance, ?_, fun r => rfl, rfl, rfl, ⟨rfl, fun a => rfl⟩, rfl, rfl, rfl, rfl, rfl⟩
  rw [exec_eq_shape, hshape, Shape.apply, hstore]

end Store

/-! ## Results and loads (40_cycle.md R111, 44_load.md R150) -/

/-- What an instruction with a result changes, and nothing else. -/
theorem writesOnly_writeResult (s : State) (rd : RegIdx) (v : Word) : WritesOnly s (s.writeResult rd v) rd v (s.pc + 4) where
  register := ⟨(s.readReg_writeResult rd rd v).trans (if_pos rfl),
    fun r hr => (s.readReg_writeResult rd r v).trans (if_neg hr)⟩
  pc := s.writeResult_pc rd v
  memory := ⟨s.writeReg_im rd v, s.byteAt_writeReg rd v⟩
  status := ⟨s.writeReg_halted rd v, s.writeReg_haltCause rd v, s.writeReg_errMemRegion rd v, s.writeReg_errPulse rd v,
    s.writeReg_retired rd v, s.writeReg_draws rd v⟩

theorem loadResult_of_shape {mk : RegIdx → RegIdx → BitVec 12 → Instr} {w : Width} {P : State → Nat → Word → Prop}
    (hshape : ∀ rd rs1 imm s, shapeOf s (mk rd rs1 imm) = .load w rd rs1 imm)
    (hvalue : ∀ s a, P s a ((s.readLE a w).signExtend 32)) : LoadResult mk w.bytes P := by
  intro rd rs1 imm s hacc
  refine ⟨_, _, ?_, hvalue s _, writesOnly_writeResult s rd _⟩
  rw [exec_eq_shape, hshape, Shape.apply, s.load_of_accessible (accessRefused_of_accessible hacc)]

/-- Sign extension keeps the signed value of the byte. -/
theorem toInt_signExtend_readLE_byte (s : State) (a : Nat) :
    ((s.readLE a .byte).signExtend 32).toInt = (s.byteAt a).toInt :=
  BitVec.toInt_signExtend_of_le (x := s.byteAt a) (by decide)

/-! ## The five invariants -/

/-- Settles O30: register 0 and the registers of an instruction without a destination by its shape; the branches, JALR, the stores
and LB by theirs; the bytes by read after write and by the frame of a store. -/
theorem invariantsOfTheSource : Obligations.InvariantsOfTheSource := by
  unfold Obligations.InvariantsOfTheSource
  obtain ⟨hwrite, -, hreset⟩ := bytesKeepTheLastWrite
  refine ⟨fun i s t h => ⟨t.readReg_zero, fun hx => ?_⟩, fun i s t h hop r => ?_, ⟨?_, ?_, ?_, ?_⟩, ?_,
    fun s a b => (hwrite s a b a).trans (if_pos rfl), hreset, fun i s t a h hstore => ?_,
    fun i s t a h => onlyStoredBytesChange i s t h a, ⟨?_, ?_, ?_⟩, ⟨?_, ?_, ?_⟩, ?_⟩
  · rw [next_of_exec h, Shape.apply_x_zero, hx]
  · exact onlyTheDestinationRegisterChanges i s t h r (by simp [destOf_eq_none_of_opcodeAt hop])
  · exact branchOn_of_shape (fun _ _ _ _ => rfl) isEqual_iff
  · exact branchOn_of_shape (fun _ _ _ _ => rfl) not_isEqual_iff
  · exact branchOn_of_shape (fun _ _ _ _ => rfl) isLessSigned_iff
  · exact branchOn_of_shape (fun _ _ _ _ => rfl) not_isLessSigned_iff
  · intro rd rs1 f3 imm s t h
    rw [next_of_exec h]
    exact getLsbD_zero_jalrTarget s rs1 imm
  · exact onlyStoredBytesChange i s t h a (by simp [hstore])
  · exact storeResult_of_shape (w := .byte) fun _ _ _ _ => rfl
  · exact storeResult_of_shape (w := .half) fun _ _ _ _ => rfl
  · exact storeResult_of_shape (w := .word) fun _ _ _ _ => rfl
  · exact storeRefused_of_shape (w := .byte) fun _ _ _ _ => rfl
  · exact storeRefused_of_shape (w := .half) fun _ _ _ _ => rfl
  · exact storeRefused_of_shape (w := .word) fun _ _ _ _ => rfl
  · exact loadResult_of_shape (w := .byte) (fun _ _ _ _ => rfl) toInt_signExtend_readLE_byte

end Sys2Proof.Machine
end

section
/-! The spec's step over the decoder's record, RA, RB, RM, RY (40_cycle.md R105 to R114) is the model's step: the opcode map finds no
row exactly where the decoder rejects, and opcode by opcode the datapath retires the shape of the decoded instruction. -/

namespace Sys2Proof

variable {w : Word} {f : Fields} {i : Instr}

/-! ## The opcode map decides what is illegal (30_encoding.md R80, R85) -/

theorem matchRow_isNone_of_rejected {r : Illegal} (h : decode w = .error r) : (matchRow w).isNone = true := by
  rw [matchRow, Option.isNone_iff_eq_none, List.find?_eq_none]
  intro row hrow hmatch
  obtain ⟨i, hi, -⟩ := opcodeRows_decode row hrow w (beq_iff_eq.1 hmatch)
  cases h.symm.trans hi

theorem matchRow_isNone_of_decoded (h : decode w = .ok i) : (matchRow w).isNone = false := by
  obtain ⟨row, hrow, -, hmatch⟩ := decodeAgreesWithOpcodeMap.1 w i h
  exact Option.isNone_eq_false_iff.2 (List.find?_isSome.2 ⟨row, hrow, beq_iff_eq.2 hmatch⟩)

/-! ## What the decoder selects by the opcode (R80, R83) -/

theorem decodeFields_cases (h : decodeFields f = .ok i) :
    (f.opcode = 0x33#7 ∧ decodeOp f = .ok i) ∨ (f.opcode = 0x13#7 ∧ decodeOpImm f = .ok i) ∨
    (f.opcode = 0x03#7 ∧ decodeLoad f = .ok i) ∨ (f.opcode = 0x23#7 ∧ decodeStore f = .ok i) ∨
    (f.opcode = 0x63#7 ∧ decodeBranch f = .ok i) ∨ (f.opcode = 0x6F#7 ∧ i = .jal f.rd (f.immLow 21)) ∨
    (f.opcode = 0x67#7 ∧ i = .jalr f.rd f.rs1 f.funct3 (f.immLow 12)) ∨
    (f.opcode = 0x37#7 ∧ i = .lui f.rd (f.imm.extractLsb' 12 20)) ∨
    (f.opcode = 0x17#7 ∧ i = .auipc f.rd (f.imm.extractLsb' 12 20)) := by
  unfold decodeFields at h
  split_ifs at h <;> simp_all

end Sys2Proof

namespace Sys2Proof.Machine

variable {s : State} {f : Fields} {i : Instr}

/-! ## The shape of what each selection answers -/

theorem shapeOf_of_decodeOp (hop : f.opcode = 0x33#7) (h : decodeOp f = .ok i) :
    shapeOf s i = .result f.rd (aluSelect f (s.readReg f.rs1) (s.readReg f.rs2)) := by
  rcases decodeOp_cases h with ⟨h3, h7, rfl⟩ | ⟨h3, h7, rfl⟩ | ⟨h3, h7, rfl⟩ | ⟨h3, h7, rfl⟩ | ⟨h3, h7, rfl⟩ | ⟨h3, h7, rfl⟩ |
    ⟨h3, h7, rfl⟩ | ⟨h3, h7, rfl⟩ | ⟨h3, h7, rfl⟩ | ⟨h3, h7, rfl⟩ | ⟨h3, h7, rfl⟩ | ⟨h3, h7, rfl⟩ <;>
    simp [shapeOf, aluSelect, hop, h3, h7]

/-- The amount of SLLI is that of the record's immediate (R72). -/
theorem shamtOf_immLow (f : Fields) : shamtOf (f.immLow 12) = shiftAmount f.imm := extractLsb'_extractLsb' f.imm (by decide)

theorem shapeOf_of_decodeOpImm (hop : f.opcode = 0x13#7) (himm : f.imm = imm12 (f.immLow 12)) (h : decodeOpImm f = .ok i) :
    shapeOf s i = .result f.rd (aluSelect f (s.readReg f.rs1) f.imm) := by
  rcases decodeOpImm_cases h with ⟨h3, rfl⟩ | ⟨h3, rfl⟩ | ⟨h3, rfl⟩ | ⟨h3, rfl⟩ | ⟨h3, rfl⟩ | ⟨h3, rfl⟩ |
    ⟨h3, htop, rfl⟩ | ⟨h3, htop, rfl⟩
  iterate 5 · simp [shapeOf, aluSelect, hop, h3, ← himm]
  · simp [shapeOf, aluSelect, h3, shamtOf_immLow]
  iterate 2 · simp [shapeOf, aluSelect, hop, h3, htop, Fields.immLow, shiftAmount]

theorem shapeOf_of_decodeLoad (h : decodeLoad f = .ok i) :
    shapeOf s i = .load (widthOf f.funct3) f.rd f.rs1 (f.immLow 12) := by
  rcases decodeLoad_cases h with ⟨h3, rfl⟩ | ⟨h3, rfl⟩ | ⟨h3, rfl⟩ <;> rw [h3] <;> rfl

theorem shapeOf_of_decodeStore (h : decodeStore f = .ok i) :
    shapeOf s i = .store (widthOf f.funct3) f.rs2 f.rs1 (f.immLow 12) := by
  rcases decodeStore_cases h with ⟨h3, rfl⟩ | ⟨h3, rfl⟩ | ⟨h3, rfl⟩ <;> rw [h3] <;> rfl

theorem shapeOf_of_decodeBranch (h : decodeBranch f = .ok i) :
    shapeOf s i = .branch (branchTaken f (s.readReg f.rs1) (s.readReg f.rs2)) (f.immLow 13) := by
  rcases decodeBranch_cases h with ⟨h3, rfl⟩ | ⟨h3, rfl⟩ | ⟨h3, rfl⟩ | ⟨h3, rfl⟩ <;> rw [branchTaken, h3] <;> rfl

/-! ## What the datapath retires, opcode by opcode (R105 to R112) -/

@[simp] theorem State.pcPlus4_memWrite (s : State) (addr : Word) (w : Width) (v : Word) :
    (s.memWrite addr w v).pcPlus4 = s.pcPlus4 := by
  unfold State.memWrite
  split <;> simp

theorem State.writeReg_countDraw (s : State) (r : RegIdx) (v : Word) : s.countDraw.writeReg r v = (s.writeReg r v).countDraw := by
  unfold State.writeReg
  split <;> rfl

theorem State.setPc_countDraw (s : State) (t : Word) : s.countDraw.setPc t = (s.setPc t).countDraw := rfl

theorem datapathRetire_op (hop : f.opcode = 0x33#7) :
    datapathRetire s f = (s.writeResult f.rd (aluSelect f (s.readReg f.rs1) (s.readReg f.rs2))).retire := by
  simp [datapathRetire, datapathExecute, writesBack, selectRA, selectRB, hop, State.writeResult, State.advance]

theorem datapathRetire_opImm (hop : f.opcode = 0x13#7) :
    datapathRetire s f = (s.writeResult f.rd (aluSelect f (s.readReg f.rs1) f.imm)).retire := by
  simp [datapathRetire, datapathExecute, writesBack, selectRA, selectRB, hop, State.writeResult, State.advance]

theorem datapathRetire_load {imm : BitVec 12} (hop : f.opcode = 0x03#7) (himm : f.imm = imm12 imm) :
    datapathRetire s f = (s.load (widthOf f.funct3) f.rd f.rs1 imm).retire := by
  have haddr : s.readReg f.rs1 + f.imm = s.effAddr f.rs1 imm := by rw [himm, State.effAddr]
  cases hread : s.memRead (s.effAddr f.rs1 imm) (widthOf f.funct3) with
  | some v =>
    simp [datapathRetire, datapathExecute, datapathLoad, writesBack, selectRA, hop, haddr, hread, State.load, State.writeResult,
      State.advance]
  | none =>
    simp [datapathRetire, datapathExecute, datapathLoad, writesBack, selectRA, hop, haddr, hread, State.load, State.writeResult,
      State.advance, State.writeReg_countDraw, State.setPc_countDraw]

theorem datapathRetire_store {imm : BitVec 12} (hop : f.opcode = 0x23#7) (himm : f.imm = imm12 imm) :
    datapathRetire s f = (s.store (widthOf f.funct3) f.rs2 f.rs1 imm).retire := by
  simp [datapathRetire, datapathExecute, writesBack, selectRA, selectRM, hop, himm, State.store, State.advance, State.effAddr]

theorem datapathRetire_branch {imm : BitVec 13} (hop : f.opcode = 0x63#7) (himm : f.imm = imm13 imm) :
    datapathRetire s f = (s.branch (branchTaken f (s.readReg f.rs1) (s.readReg f.rs2)) imm).retire := by
  simp [datapathRetire, datapathExecute, writesBack, selectRA, selectRM, hop, himm, State.branch, State.branchTarget]

theorem datapathRetire_jal {imm : BitVec 21} (hop : f.opcode = 0x6F#7) (himm : f.imm = imm21 imm) :
    datapathRetire s f = (s.jump f.rd (s.jalTarget imm)).retire := by
  simp [datapathRetire, datapathExecute, writesBack, hop, himm, State.jump, State.jalTarget]

theorem datapathRetire_jalr {imm : BitVec 12} (hop : f.opcode = 0x67#7) (himm : f.imm = imm12 imm) :
    datapathRetire s f = (s.jump f.rd (s.jalrTarget f.rs1 imm)).retire := by
  simp [datapathRetire, datapathExecute, writesBack, selectRA, hop, himm, State.jump, State.jalrTarget]

theorem datapathRetire_lui (hop : f.opcode = 0x37#7) : datapathRetire s f = (s.writeResult f.rd f.imm).retire := by
  simp [datapathRetire, datapathExecute, writesBack, hop, State.writeResult, State.advance]

theorem datapathRetire_auipc (hop : f.opcode = 0x17#7) :
    datapathRetire s f = (s.writeResult f.rd (aluAdd s.pc f.imm)).retire := by
  simp [datapathRetire, datapathExecute, writesBack, selectRA, hop, State.writeResult, State.advance, aluAdd]

/-! ## The immediate of the record is that of the operand field (30_encoding.md R79) -/

variable {w : Word}

theorem fieldsOf_imm_eq_imm12 (hfmt : formatOf (fieldsOf w).opcode = .I ∨ formatOf (fieldsOf w).opcode = .S) :
    (fieldsOf w).imm = imm12 ((fieldsOf w).immLow 12) := by
  rcases hfmt with h | h <;> rw [Fields.immLow, fieldsOf_imm_of_format h, immOf, extract_signExtend_12, imm12]

theorem fieldsOf_imm_eq_imm13 (hfmt : formatOf (fieldsOf w).opcode = .SB) :
    (fieldsOf w).imm = imm13 ((fieldsOf w).immLow 13) := by
  rw [Fields.immLow, fieldsOf_imm_of_format hfmt, immOf, extract_signExtend_13, imm13]

theorem fieldsOf_imm_eq_imm21 (hfmt : formatOf (fieldsOf w).opcode = .UJ) :
    (fieldsOf w).imm = imm21 ((fieldsOf w).immLow 21) := by
  rw [Fields.immLow, fieldsOf_imm_of_format hfmt, immOf, extract_signExtend_21, imm21]

theorem fieldsOf_imm_eq_immUpper (hfmt : formatOf (fieldsOf w).opcode = .U) :
    (fieldsOf w).imm = immUpper ((fieldsOf w).imm.extractLsb' 12 20) := by
  rw [fieldsOf_imm_of_format hfmt, immOf, extract_upper, immUpper]

/-! ## The two steps -/

/-- The datapath retires the shape of the decoded instruction. -/
theorem datapathRetire_of_decode (h : decode w = .ok i) :
    datapathRetire s (fieldsOf w) = ((shapeOf s i).apply s).retire := by
  rcases decodeFields_cases h with ⟨hop, h⟩ | ⟨hop, h⟩ | ⟨hop, h⟩ | ⟨hop, h⟩ | ⟨hop, h⟩ | ⟨hop, rfl⟩ | ⟨hop, rfl⟩ | ⟨hop, rfl⟩ |
    ⟨hop, rfl⟩
  · rw [datapathRetire_op hop, shapeOf_of_decodeOp hop h]; rfl
  · have himm := fieldsOf_imm_eq_imm12 (w := w) (.inl (hop ▸ rfl))
    rw [datapathRetire_opImm hop, shapeOf_of_decodeOpImm hop himm h]; rfl
  · rw [datapathRetire_load hop (fieldsOf_imm_eq_imm12 (.inl (hop ▸ rfl))), shapeOf_of_decodeLoad h]; rfl
  · rw [datapathRetire_store hop (fieldsOf_imm_eq_imm12 (.inr (hop ▸ rfl))), shapeOf_of_decodeStore h]; rfl
  · rw [datapathRetire_branch hop (fieldsOf_imm_eq_imm13 (hop ▸ rfl)), shapeOf_of_decodeBranch h]; rfl
  · exact datapathRetire_jal hop (fieldsOf_imm_eq_imm21 (hop ▸ rfl))
  · exact datapathRetire_jalr hop (fieldsOf_imm_eq_imm12 (.inl (hop ▸ rfl)))
  · rw [datapathRetire_lui hop, shapeOf, ← fieldsOf_imm_eq_immUpper (hop ▸ rfl)]; rfl
  · rw [datapathRetire_auipc hop, shapeOf, ← fieldsOf_imm_eq_immUpper (hop ▸ rfl)]; rfl

/-- Settles O50: both steps halt on the same words, and otherwise retire the same shape. -/
theorem datapathStepIsStep : Obligations.DatapathStepIsStep := by
  unfold Obligations.DatapathStepIsStep
  intro s
  cases hs : s.halted with
  | true => rw [step_of_halted hs]; simp [datapathStep, hs]
  | false =>
    rcases s.fetchDecode_cases with ⟨hf, hd⟩ | ⟨hf, hd⟩ | ⟨w, r, hf, hw, hr, hd⟩ | ⟨w, i, hf, hw, hi, hd⟩
    · rw [step_of_halt hs hd]; simp [datapathStep, hs, hf]
    · rw [step_of_halt hs hd]; simp [datapathStep, hs, hf]
    · rw [step_of_halt hs hd]; simp [datapathStep, hs, hf, hw, matchRow_isNone_of_rejected hr]
    · rw [step_of_run hs hd]; simp [datapathStep, hs, hf, hw, matchRow_isNone_of_decoded hi, datapathRetire_of_decode hi]

end Sys2Proof.Machine
end

section
/-! The results of the register-register instructions and of SLTI (41_op_reg.md R121 to R129, 43_op_imm.md R145): an instruction
whose shape is a result writes it and keeps the rest, so what is left of each row is the value of its ALU operation. -/

namespace Sys2Proof.Machine

open Sys2Proof.Claims

/-! ## From the shape of an instruction to its result and frame -/

theorem resultRR_of_shape {mk : RegIdx → RegIdx → RegIdx → Instr} {P : Word → Word → Word → Prop} (op : Word → Word → Word)
    (hshape : ∀ rd rs1 rs2 s, shapeOf s (mk rd rs1 rs2) = .result rd (op (s.readReg rs1) (s.readReg rs2)))
    (hvalue : ∀ a b, P a b (op a b)) : ResultRR mk P := by
  intro rd rs1 rs2 s
  refine ⟨_, _, ?_, hvalue (s.readReg rs1) (s.readReg rs2), writesOnly_writeResult s rd _⟩
  rw [exec_eq_shape, hshape, Shape.apply]

theorem resultRI_of_shape {n : Nat} {mk : RegIdx → RegIdx → BitVec n → Instr} {P : Word → BitVec n → Word → Prop}
    (op : Word → BitVec n → Word)
    (hshape : ∀ rd rs1 imm s, shapeOf s (mk rd rs1 imm) = .result rd (op (s.readReg rs1) imm))
    (hvalue : ∀ a imm, P a imm (op a imm)) : ResultRI mk P := by
  intro rd rs1 imm s
  refine ⟨_, _, ?_, hvalue (s.readReg rs1) imm, writesOnly_writeResult s rd _⟩
  rw [exec_eq_shape, hshape, Shape.apply]

/-! ## The values of the ALU operations -/

theorem toNat_aluAdd (a b : Word) : (aluAdd a b).toNat = (a.toNat + b.toNat) % 2 ^ 32 := BitVec.toNat_add a b

theorem toNat_aluSub (a b : Word) : ((aluSub a b).toNat : Int) = ((a.toNat : Int) - b.toNat) % 2 ^ 32 := by
  rw [aluSub, BitVec.toNat_sub]
  omega

theorem getLsbD_aluXor (a b : Word) (k : Nat) : (aluXor a b).getLsbD k = (a.getLsbD k != b.getLsbD k) := BitVec.getLsbD_xor

theorem getLsbD_aluOr (a b : Word) (k : Nat) : (aluOr a b).getLsbD k = (a.getLsbD k || b.getLsbD k) := BitVec.getLsbD_or

theorem getLsbD_aluAnd (a b : Word) (k : Nat) : (aluAnd a b).getLsbD k = (a.getLsbD k && b.getLsbD k) := BitVec.getLsbD_and

theorem toNat_shiftAmount (v : Word) : (shiftAmount v).toNat = v.toNat % 32 := by simp [shiftAmount]

theorem toNat_aluSll (a : Word) (sh : BitVec 5) : (aluSll a sh).toNat = a.toNat * 2 ^ sh.toNat % 2 ^ 32 := by
  rw [aluSll, BitVec.toNat_shiftLeft, Nat.shiftLeft_eq]

theorem toNat_aluSrl (a : Word) (sh : BitVec 5) : (aluSrl a sh).toNat = a.toNat / 2 ^ sh.toNat := by
  rw [aluSrl, BitVec.toNat_ushiftRight, Nat.shiftRight_eq_div_pow]

/-- SRA moves the bits down and copies the sign bit into the places they leave (R129). -/
theorem getLsbD_aluSra (a : Word) (sh : BitVec 5) {k : Nat} (hk : k < 32) :
    (aluSra a sh).getLsbD k = if k + sh.toNat < 32 then a.getLsbD (k + sh.toNat) else a.getLsbD 31 := by
  rw [aluSra, BitVec.getLsbD_sshiftRight, BitVec.msb_eq_getLsbD_last, Nat.add_comm sh.toNat]
  simp [Nat.not_le.2 hk]

theorem aluSlt_eq_one {a b : Word} (h : a.toInt < b.toInt) : aluSlt a b = 1 := by
  rw [aluSlt, (isLessSigned_iff a b).2 h]; rfl

theorem aluSlt_eq_zero {a b : Word} (h : b.toInt ≤ a.toInt) : aluSlt a b = 0 := by
  rw [aluSlt, Bool.eq_false_of_not_eq_true' ((not_isLessSigned_iff a b).2 h)]; rfl

theorem toInt_imm12 (imm : BitVec 12) : (imm12 imm).toInt = imm.toInt := BitVec.toInt_signExtend_of_le (by decide)

/-! ## The statements -/

/-- Settles O9: the two rows, and the wrapped sum and difference. -/
theorem addSubResult : Obligations.AddSubResult := by
  unfold Obligations.AddSubResult
  refine ⟨selectedBy_add, selectedBy_sub, ?_, ?_⟩
  · exact resultRR_of_shape aluAdd (fun _ _ _ _ => rfl) toNat_aluAdd
  · exact resultRR_of_shape aluSub (fun _ _ _ _ => rfl) toNat_aluSub

/-- Settles O10: the three rows, and the bits of the three results. -/
theorem xorOrAndResult : Obligations.XorOrAndResult := by
  unfold Obligations.XorOrAndResult
  refine ⟨selectedBy_xor, selectedBy_or, selectedBy_and, ?_, ?_, ?_⟩
  · exact resultRR_of_shape aluXor (fun _ _ _ _ => rfl) getLsbD_aluXor
  · exact resultRR_of_shape aluOr (fun _ _ _ _ => rfl) getLsbD_aluOr
  · exact resultRR_of_shape aluAnd (fun _ _ _ _ => rfl) getLsbD_aluAnd

/-- Settles O11: the three rows, and the shifts by an amount that is `x[rs2]` modulo 32. -/
theorem registerShiftResult : Obligations.RegisterShiftResult := by
  unfold Obligations.RegisterShiftResult
  simp only [← toNat_shiftAmount]
  refine ⟨selectedBy_sll, selectedBy_srl, selectedBy_sra, ?_, ?_, ?_⟩
  · exact resultRR_of_shape (fun a b => aluSll a (shiftAmount b)) (fun _ _ _ _ => rfl) fun a b => toNat_aluSll a _
  · exact resultRR_of_shape (fun a b => aluSrl a (shiftAmount b)) (fun _ _ _ _ => rfl) fun a b => toNat_aluSrl a _
  · exact resultRR_of_shape (fun a b => aluSra a (shiftAmount b)) (fun _ _ _ _ => rfl) fun a b _ hk => getLsbD_aluSra a _ hk

/-- Settles O12: the two rows, and the signed comparison with the register and with the immediate, whose signed value sign
extension keeps. -/
theorem setLessThanResult : Obligations.SetLessThanResult := by
  unfold Obligations.SetLessThanResult
  simp only [← toInt_imm12]
  refine ⟨selectedBy_slt, selectedBy_slti, ?_, ?_⟩
  · exact resultRR_of_shape aluSlt (fun _ _ _ _ => rfl) fun a b => ⟨aluSlt_eq_one, aluSlt_eq_zero⟩
  · exact resultRI_of_shape (fun a imm => aluSlt a (imm12 imm)) (fun _ _ _ _ => rfl) fun a imm => ⟨aluSlt_eq_one, aluSlt_eq_zero⟩

end Sys2Proof.Machine

namespace Sys2Proof

/-- Settles O8: each of the words is the encoding of its instruction. -/
theorem exampleWordsDecode : Obligations.ExampleWordsDecode := by
  unfold Obligations.ExampleWordsDecode
  refine ⟨?_, ?_, ?_, ?_, ?_, ?_, ?_, ?_⟩ <;> exact (decode_eq_ok_iff rfl).2 rfl

end Sys2Proof
end

section
/-! The results of MUL, DIV and REM (42_op_muldiv.md R131 to R133). Outside the two cases the spec sets apart, a zero divisor and
-2^31 by -1, the ALU's quotient and remainder are the library's signed division, whose quotient rounds toward zero and always fits. -/

namespace Sys2Proof.Machine

open Sys2Proof.Claims

variable {a b : Word}

/-! ## The product (R131) -/

theorem toNat_aluMul (a b : Word) : (aluMul a b).toNat = a.toNat * b.toNat % 2 ^ 32 := BitVec.toNat_mul a b

/-- The low word of the product is the same for operands read signed (D3): it is the word of the integer product. -/
theorem toNat_aluMul_signed (a b : Word) : ((aluMul a b).toNat : Int) = a.toInt * b.toInt % 2 ^ 32 := by
  have hword : aluMul a b = BitVec.ofInt 32 (a.toInt * b.toInt) := by
    rw [BitVec.ofInt_mul, BitVec.ofInt_toInt, BitVec.ofInt_toInt, aluMul]
  rw [hword, BitVec.toNat_ofInt]
  exact Int.toNat_of_nonneg (Int.emod_nonneg _ (by decide))

/-! ## The two cases set apart: a zero divisor and the overflow pair (R132, R133, D5) -/

/-- The pair the model compares bit by bit is the one the spec names by its signed values. -/
theorem isDivOverflow_iff (a b : Word) : isDivOverflow a b = true ↔ a.toInt = -2 ^ 31 ∧ b.toInt = -1 := by
  rw [isDivOverflow, Bool.and_eq_true, beq_iff_eq, beq_iff_eq, ← BitVec.toInt_inj, ← BitVec.toInt_inj]
  rfl

theorem eq_zero_iff_toInt (b : Word) : b = 0#32 ↔ b.toInt = 0 := BitVec.toInt_inj.symm

theorem aluDiv_of_zero (hb : b.toInt = 0) : aluDiv a b = 0 := if_pos ((eq_zero_iff_toInt b).2 hb)

theorem aluRem_of_zero (hb : b.toInt = 0) : aluRem a b = 0 := if_pos ((eq_zero_iff_toInt b).2 hb)

theorem ne_zero_of_toInt_eq_neg_one (hb : b.toInt = -1) : b ≠ 0#32 := by
  rintro rfl
  exact absurd hb (by decide)

theorem aluDiv_of_overflow (h : a.toInt = -2 ^ 31 ∧ b.toInt = -1) : aluDiv a b = Config.divOverflow.1 := by
  rw [aluDiv, if_neg (ne_zero_of_toInt_eq_neg_one h.2), if_pos ((isDivOverflow_iff a b).2 h)]

theorem aluRem_of_overflow (h : a.toInt = -2 ^ 31 ∧ b.toInt = -1) : aluRem a b = Config.divOverflow.2 := by
  rw [aluRem, if_neg (ne_zero_of_toInt_eq_neg_one h.2), if_pos ((isDivOverflow_iff a b).2 h)]

/-! ## The rest: truncated quotient and remainder (R132, R133, D4) -/

section Ordinary
variable (hb : b.toInt ≠ 0) (hover : ¬(a.toInt = -2 ^ 31 ∧ b.toInt = -1))
include hb hover

theorem aluDiv_eq_sdiv : aluDiv a b = a.sdiv b := by
  rw [aluDiv, if_neg (mt (eq_zero_iff_toInt b).1 hb), if_neg (mt (isDivOverflow_iff a b).1 hover)]
  exact BitVec.eq_of_toInt_eq (by rw [BitVec.toInt_ofInt, BitVec.toInt_sdiv])

theorem aluRem_eq_srem : aluRem a b = a.srem b := by
  rw [aluRem, if_neg (mt (eq_zero_iff_toInt b).1 hb), if_neg (mt (isDivOverflow_iff a b).1 hover), ← Int.tmod_def,
    ← BitVec.toInt_srem, BitVec.ofInt_toInt]

theorem toInt_aluDiv : (aluDiv a b).toInt = a.toInt.tdiv b.toInt := by
  rw [aluDiv_eq_sdiv hb hover]
  refine BitVec.toInt_sdiv_of_ne_or_ne a b (not_and_or.1 fun hpair => hover ?_)
  obtain ⟨rfl, rfl⟩ := hpair
  decide

theorem toInt_aluRem : (aluRem a b).toInt = a.toInt.tmod b.toInt := by rw [aluRem_eq_srem hb hover, BitVec.toInt_srem]

end Ordinary

/-! ## The sign of a truncated remainder -/

theorem pos_of_tmod_pos {x y : Int} (h : 0 < x.tmod y) : 0 < x := by
  by_contra hx
  have hneg : 0 ≤ (-x).tmod y := Int.tmod_nonneg y (by omega)
  rw [Int.neg_tmod] at hneg
  omega

theorem neg_of_tmod_neg {x y : Int} (h : x.tmod y < 0) : x < 0 :=
  not_le.1 fun hx => not_lt.2 (Int.tmod_nonneg y hx) h

/-! ## The statements -/

/-- Settles O13: the row, and the product read unsigned and signed. -/
theorem mulResult : Obligations.MulResult := by
  unfold Obligations.MulResult
  exact ⟨selectedBy_mul, resultRR_of_shape aluMul (fun _ _ _ _ => rfl) fun a b => ⟨toNat_aluMul a b, toNat_aluMul_signed a b⟩⟩

/-- Settles O14: the two rows, and the three cases of each result. -/
theorem divRemResult : Obligations.DivRemResult := by
  unfold Obligations.DivRemResult
  simp only [← Int.tmod_def]
  refine ⟨selectedBy_div, selectedBy_rem, ?_, ?_⟩
  · exact resultRR_of_shape aluDiv (fun _ _ _ _ => rfl) fun a b =>
      ⟨aluDiv_of_zero, aluDiv_of_overflow, fun ⟨hb, hover⟩ => toInt_aluDiv hb hover⟩
  · exact resultRR_of_shape aluRem (fun _ _ _ _ => rfl) fun a b =>
      ⟨aluRem_of_zero, aluRem_of_overflow, fun ⟨hb, hover⟩ => toInt_aluRem hb hover⟩

/-- Settles O16: the two results are the truncated quotient and its remainder, for which the law is the integers' own. -/
theorem quotientAndRemainderLaw : Obligations.QuotientAndRemainderLaw := by
  unfold Obligations.QuotientAndRemainderLaw
  intro rs1 rs2 s hb hover
  refine ⟨aluDiv (s.readReg rs1) (s.readReg rs2), aluRem (s.readReg rs1) (s.readReg rs2),
    fun rd => ⟨_, exec_eq_shape (.div rd rs1 rs2) s, (writesOnly_writeResult s rd _).register.dest⟩,
    fun rd => ⟨_, exec_eq_shape (.rem rd rs1 rs2) s, (writesOnly_writeResult s rd _).register.dest⟩, ?_⟩
  rw [toInt_aluDiv hb hover, toInt_aluRem hb hover]
  refine ⟨(Int.mul_tdiv_add_tmod _ _).symm, ?_, pos_of_tmod_pos, neg_of_tmod_neg⟩
  rw [Int.natAbs_tmod]
  exact Nat.mod_lt _ (Int.natAbs_pos.2 hb)

end Sys2Proof.Machine
end

section
/-! The results of the register-immediate instructions other than SLTI (43_op_imm.md R141 to R148): the ALU operations of the
register rows, with the sign-extended immediate or the shift amount in the second place. -/

namespace Sys2Proof.Machine

open Sys2Proof.Claims

/-! ## The second operand -/

/-- Bits 31..11 of the operand are copies of the immediate's top bit (R140). -/
theorem getLsbD_imm12 (imm : BitVec 12) {k : Nat} (hk : k < 32) : (imm12 imm).getLsbD k = imm.getLsbD (min k 11) := by
  rw [imm12, BitVec.getLsbD_signExtend, BitVec.msb_eq_getLsbD_last, decide_eq_true hk, Bool.true_and]
  split
  · rw [Nat.min_eq_left (by omega)]
  · rw [Nat.min_eq_right (by omega)]

theorem toNat_shamtOf (imm : BitVec 12) : (shamtOf imm).toNat = imm.toNat % 32 := by simp [shamtOf]

/-- The sum with the second operand read signed: the two readings of a word differ by a multiple of 2^32 (D2). -/
theorem toNat_aluAdd_signed (a b : Word) : ((aluAdd a b).toNat : Int) = ((a.toNat : Int) + b.toInt) % 2 ^ 32 := by
  rw [toNat_aluAdd, BitVec.toInt_eq_toNat_cond]
  split
  · omega
  · omega

/-! ## The statements -/

/-- Settles O17: the row, and the wrapped sum with the immediate, whose signed value sign extension keeps. -/
theorem addiResult : Obligations.AddiResult := by
  unfold Obligations.AddiResult
  simp only [← toInt_imm12]
  exact ⟨selectedBy_addi,
    resultRI_of_shape (fun a imm => aluAdd a (imm12 imm)) (fun _ _ _ _ => rfl) fun a imm => toNat_aluAdd_signed a _⟩

/-- Settles O18: the three rows, and the bits of the three results, those of the immediate read through its sign extension. -/
theorem logicalImmediateResult : Obligations.LogicalImmediateResult := by
  unfold Obligations.LogicalImmediateResult
  refine ⟨selectedBy_andi, selectedBy_ori, selectedBy_xori, ?_, ?_, ?_⟩
  · exact resultRI_of_shape (fun a imm => aluAnd a (imm12 imm)) (fun _ _ _ _ => rfl) fun a imm k hk =>
      getLsbD_imm12 imm hk ▸ getLsbD_aluAnd a (imm12 imm) k
  · exact resultRI_of_shape (fun a imm => aluOr a (imm12 imm)) (fun _ _ _ _ => rfl) fun a imm k hk =>
      getLsbD_imm12 imm hk ▸ getLsbD_aluOr a (imm12 imm) k
  · exact resultRI_of_shape (fun a imm => aluXor a (imm12 imm)) (fun _ _ _ _ => rfl) fun a imm k hk =>
      getLsbD_imm12 imm hk ▸ getLsbD_aluXor a (imm12 imm) k

/-- Settles O19: the three rows, and the shifts by `imm[4:0]`, which is the immediate modulo 32, or by the five-bit amount. -/
theorem immediateShiftResult : Obligations.ImmediateShiftResult := by
  unfold Obligations.ImmediateShiftResult
  simp only [← toNat_shamtOf]
  refine ⟨selectedBy_slli, selectedBy_srli, selectedBy_srai, ?_, ?_, ?_⟩
  · exact resultRI_of_shape (fun a imm => aluSll a (shamtOf imm)) (fun _ _ _ _ => rfl) fun a imm => toNat_aluSll a _
  · exact resultRI_of_shape aluSrl (fun _ _ _ _ => rfl) toNat_aluSrl
  · exact resultRI_of_shape aluSra (fun _ _ _ _ => rfl) fun a shamt _ hk => getLsbD_aluSra a shamt hk

end Sys2Proof.Machine
end

section
/-! The loads (44_load.md R150 to R154): the value at an accessible address, byte by byte, and what a load at a refused address
leaves. -/

namespace Sys2Proof.Machine

open Sys2Proof.Claims

/-! ## The little-endian values (20_memory.md R48, 44_load.md R152, R153) -/

/-- The byte at the higher address carries the sign, the lower one counts unsigned. -/
theorem toInt_signExtend_readLE_half (s : State) (a : Nat) :
    ((s.readLE a .half).signExtend 32).toInt = (s.byteAt (a + 1)).toInt * 256 + (s.byteAt a).toNat := by
  rw [s.signExtend_readLE_half, BitVec.toInt_signExtend_of_le (by decide), BitVec.toInt_append, if_neg (by decide), mul_comm]
  rfl

theorem toNat_append_eq_add {m n : Nat} (x : BitVec m) (y : BitVec n) : (x ++ y).toNat = x.toNat * 2 ^ n + y.toNat := by
  rw [BitVec.toNat_append, ← Nat.shiftLeft_add_eq_or_of_lt y.isLt, Nat.shiftLeft_eq]

theorem toNat_signExtend_readLE_word (s : State) (a : Nat) :
    ((s.readLE a .word).signExtend 32).toNat = (s.byteAt a).toNat + 256 * (s.byteAt (a + 1)).toNat +
      65536 * (s.byteAt (a + 2)).toNat + 16777216 * (s.byteAt (a + 3)).toNat := by
  rw [s.signExtend_readLE_word, toNat_append_eq_add, toNat_append_eq_add, toNat_append_eq_add]
  omega

/-! ## Refused loads (44_load.md R154) -/

/-- A refused load is the report followed by a result, which keeps what was reported; the draw counter, which
alone also moves, is no part of the statement (log 3). -/
theorem loadRefused_of_shape {mk : RegIdx → RegIdx → BitVec 12 → Instr} {w : Width}
    (hshape : ∀ rd rs1 imm s, shapeOf s (mk rd rs1 imm) = .load w rd rs1 imm) : LoadRefused mk w.bytes := by
  intro rd rs1 imm s hacc
  obtain ⟨hreg, hpc, hmem, hstatus⟩ := writesOnly_writeResult s.reportMemRegion rd s.invalidLoad
  refine ⟨(s.reportMemRegion.writeResult rd s.invalidLoad).countDraw, s.invalidLoad, ?_, ⟨hreg.dest, hreg.others⟩,
    hpc, ⟨hmem.instr, hmem.bytes⟩, hstatus.errMemRegion, hstatus.errPulse, hstatus.halted, hstatus.haltCause, hstatus.retired⟩
  rw [exec_eq_shape, hshape, Shape.apply, s.load_of_refused (accessRefused_eq_true.2 hacc)]

/-! ## The statements -/

/-- Settles O20: the three rows, and a performed load of each width with the value its bytes make up. -/
theorem loadsReadLittleEndian : Obligations.LoadsReadLittleEndian := by
  unfold Obligations.LoadsReadLittleEndian
  refine ⟨selectedBy_lb, selectedBy_lh, selectedBy_lw, ?_, ?_, ?_⟩
  · exact loadResult_of_shape (w := .byte) (fun _ _ _ _ => rfl) toInt_signExtend_readLE_byte
  · exact loadResult_of_shape (w := .half) (fun _ _ _ _ => rfl) toInt_signExtend_readLE_half
  · exact loadResult_of_shape (w := .word) (fun _ _ _ _ => rfl) toNat_signExtend_readLE_word

/-- Settles O21: the refused load, at the three widths. -/
theorem refusedLoadsComplete : Obligations.RefusedLoadsComplete := by
  unfold Obligations.RefusedLoadsComplete
  refine ⟨?_, ?_, ?_⟩
  · exact loadRefused_of_shape (w := .byte) fun _ _ _ _ => rfl
  · exact loadRefused_of_shape (w := .half) fun _ _ _ _ => rfl
  · exact loadRefused_of_shape (w := .word) fun _ _ _ _ => rfl

end Sys2Proof.Machine
end

section
/-! The stores (45_store.md R155 to R158). Each of SB, SH and SW has the shape of a store of its width, so what a store of that
shape does at an accessible address and at a refused one says it of the three. -/

namespace Sys2Proof.Machine

/-- Settles O22: the three rows, and a performed store of each width. -/
theorem storesWriteTheirBytes : Obligations.StoresWriteTheirBytes := by
  unfold Obligations.StoresWriteTheirBytes
  refine ⟨selectedBy_sb, selectedBy_sh, selectedBy_sw, ?_, ?_, ?_⟩
  · exact storeResult_of_shape (w := .byte) fun _ _ _ _ => rfl
  · exact storeResult_of_shape (w := .half) fun _ _ _ _ => rfl
  · exact storeResult_of_shape (w := .word) fun _ _ _ _ => rfl

/-- Settles O23: the refused store, at the three widths. -/
theorem refusedStoresWriteNothing : Obligations.RefusedStoresWriteNothing := by
  unfold Obligations.RefusedStoresWriteNothing
  refine ⟨?_, ?_, ?_⟩
  · exact storeRefused_of_shape (w := .byte) fun _ _ _ _ => rfl
  · exact storeRefused_of_shape (w := .half) fun _ _ _ _ => rfl
  · exact storeRefused_of_shape (w := .word) fun _ _ _ _ => rfl

end Sys2Proof.Machine
end

section
/-! The branches (46_branch.md R160 to R164). The four have the shape of a branch, and BLT and BGE compare as the statement does;
that two words are equal is told bit by bit. -/

namespace Sys2Proof.Machine

/-! ## Equality of all 32 bits (R161, R162) -/

theorem eq_iff_forall_getLsbD (a b : Word) : a = b ↔ ∀ k, a.getLsbD k = b.getLsbD k :=
  ⟨fun h k => congrArg (·.getLsbD k) h, fun h => BitVec.eq_of_getLsbD_eq fun k _ => h k⟩

theorem isEqual_iff_forall_getLsbD (a b : Word) : isEqual a b = true ↔ ∀ k, a.getLsbD k = b.getLsbD k :=
  (isEqual_iff a b).trans (eq_iff_forall_getLsbD a b)

theorem not_isEqual_iff_exists_getLsbD (a b : Word) : (!isEqual a b) = true ↔ ∃ k, a.getLsbD k ≠ b.getLsbD k :=
  (not_isEqual_iff a b).trans ((eq_iff_forall_getLsbD a b).not.trans not_forall)

/-! ## The statement -/

/-- Settles O25: the four rows, and a branch on each of the four comparisons. -/
theorem branchesCompareAndMove : Obligations.BranchesCompareAndMove := by
  unfold Obligations.BranchesCompareAndMove
  refine ⟨selectedBy_beq, selectedBy_bne, selectedBy_blt, selectedBy_bge, ?_, ?_, ?_, ?_⟩
  · exact branchOn_of_shape (fun _ _ _ _ => rfl) isEqual_iff_forall_getLsbD
  · exact branchOn_of_shape (fun _ _ _ _ => rfl) not_isEqual_iff_exists_getLsbD
  · exact branchOn_of_shape (fun _ _ _ _ => rfl) isLessSigned_iff
  · exact branchOn_of_shape (fun _ _ _ _ => rfl) not_isLessSigned_iff

end Sys2Proof.Machine
end

section
/-! The jumps (47_jump.md R170 to R172). Both have the shape of a jump, which writes the link and moves the pc; what is left is the
target of JALR as a number. -/

namespace Sys2Proof.Machine

open Sys2Proof.Claims

/-! ## The shape of a jump (R170) -/

/-- What a jump changes, and nothing else. -/
theorem writesOnly_jump (s : State) (rd : RegIdx) (target : Word) :
    WritesOnly s (s.jump rd target) rd (s.pc + 4) target where
  register := ⟨(s.readReg_jump rd rd target).trans (if_pos rfl),
    fun r hr => (s.readReg_jump rd r target).trans (if_neg hr)⟩
  pc := rfl
  memory := ⟨s.writeReg_im rd s.pcPlus4, s.byteAt_writeReg rd s.pcPlus4⟩
  status := ⟨s.writeReg_halted rd _, s.writeReg_haltCause rd _, s.writeReg_errMemRegion rd _, s.writeReg_errPulse rd _,
    s.writeReg_retired rd _, s.writeReg_draws rd _⟩

/-! ## The target of JALR (R172) -/

/-- The mask of JALR drops bit 0 and keeps the 31 bits above it. -/
theorem toNat_and_jalrMask (v : Word) : (v &&& 0xFFFFFFFE#32).toNat = v.toNat / 2 * 2 := by
  have heven : (v.toNat &&& 0xFFFFFFFE) % 2 = 0 := by simp [Nat.and_mod_two_pow (n := 1)]
  have hhalf : (v.toNat &&& 0xFFFFFFFE) / 2 = v.toNat / 2 :=
    calc (v.toNat &&& 0xFFFFFFFE) / 2 = v.toNat / 2 &&& (2 ^ 31 - 1) := Nat.and_div_two
      _ = v.toNat / 2 % 2 ^ 31 := Nat.and_two_pow_sub_one_eq_mod _ _
      _ = v.toNat / 2 := Nat.mod_eq_of_lt (by omega)
  rw [BitVec.toNat_and, ← hhalf]
  exact (Nat.div_mul_cancel (Nat.dvd_of_mod_eq_zero heven)).symm

/-- The target of JALR is the effective sum, modulo 2^32 (D2), rounded down to an even number. -/
theorem toNat_jalrTarget (s : State) (rs1 : RegIdx) (imm : BitVec 12) :
    ((s.jalrTarget rs1 imm).toNat : Int) = (((s.readReg rs1).toNat : Int) + imm.toInt) % 2 ^ 32 / 2 * 2 := by
  rw [State.jalrTarget, toNat_and_jalrMask, imm12, ← toNat_add_signExtend]
  rfl

/-! ## The statements -/

/-- Settles O26: the row, and a jump to the sum of the pc and the immediate. -/
theorem jalLinksAndJumps : Obligations.JalLinksAndJumps := by
  unfold Obligations.JalLinksAndJumps
  exact ⟨selectedBy_jal, fun rd imm s => ⟨_, exec_eq_shape _ s, writesOnly_jump s rd (s.jalTarget imm)⟩⟩

/-- Settles O27: the row, and a jump to the even target that the old base register gives. -/
theorem jalrLinksAndJumps : Obligations.JalrLinksAndJumps := by
  unfold Obligations.JalrLinksAndJumps
  exact ⟨selectedBy_jalr, fun rd rs1 f3 imm s =>
    ⟨_, _, exec_eq_shape _ s, toNat_jalrTarget s rs1 imm, writesOnly_jump s rd (s.jalrTarget rs1 imm)⟩⟩

end Sys2Proof.Machine
end

section
/-! The upper immediates (48_upper.md R175 to R177) and DivideByZero (60_exceptions.md R184): instructions whose shape is a result. -/

namespace Sys2Proof.Machine

open Sys2Proof.Claims

/-- The field over twelve zero bits (R175). -/
theorem toNat_immUpper (imm20 : BitVec 20) : (immUpper imm20).toNat = imm20.toNat * 4096 := by
  rw [immUpper, toNat_append_eq_add]
  simp

/-- Settles O28: the row, and a result that is the immediate. -/
theorem luiResult : Obligations.LuiResult := by
  unfold Obligations.LuiResult
  exact ⟨selectedBy_lui, fun rd imm20 s => ⟨_, _, exec_eq_shape _ s, toNat_immUpper imm20, writesOnly_writeResult s rd _⟩⟩

/-- Settles O29: the row, and a result that is the wrapped sum of the pc and the immediate. -/
theorem auipcResult : Obligations.AuipcResult := by
  unfold Obligations.AuipcResult
  refine ⟨selectedBy_auipc, fun rd imm20 s => ⟨_, _, exec_eq_shape _ s, ?_, writesOnly_writeResult s rd _⟩⟩
  rw [toNat_aluAdd, toNat_immUpper]

/-- Settles O15: the clause of DIV and REM for a zero divisor, whose frame keeps the status as for every other divisor. -/
theorem divideByZeroGivesZero : Obligations.DivideByZeroGivesZero := by
  unfold Obligations.DivideByZeroGivesZero
  intro rd rs1 rs2 s hdivisor
  obtain ⟨-, -, hdiv, hrem⟩ := divRemResult
  obtain ⟨t, q, hexecDiv, ⟨hq, -⟩, hwritesQ⟩ := hdiv rd rs1 rs2 s
  obtain ⟨u, r, hexecRem, ⟨hr, -⟩, hwritesR⟩ := hrem rd rs1 rs2 s
  have hzero : (s.readReg rs2).toInt = 0 := (eq_zero_iff_toInt _).1 hdivisor
  exact ⟨⟨t, hexecDiv, hq hzero ▸ hwritesQ⟩, ⟨u, hexecRem, hr hzero ▸ hwritesR⟩⟩

end Sys2Proof.Machine
end

section
/-! The host's port (70_reset_and_hazards.md R200 to R207): where the image load port puts a line or why it refuses it, and that the
reset input, an accepted line and a placed word keep the invariant. -/

namespace Sys2Proof.Machine

open Sys2Proof.Claims

/-! ## The image load port, case by case (R203 to R205, log 15) -/

section LoadCell

variable {s : State} {addr data : Word}

theorem State.beforeFirstCycle_iff : s.beforeFirstCycle = true ↔ s.retired = 0 ∧ s.halted = false := by
  simp [State.beforeFirstCycle]

theorem segmentOf_ne_instruction {a : Nat} (ha : 0x10000000 ≤ a) : segmentOf a ≠ .instruction := fun h =>
  Nat.not_lt.2 ha (segmentOf_instruction.1 h)

/-- The end of a data address's segment, by the address alone (20_memory.md R41). -/
theorem segmentEnd_of_le {a : Nat} (ha : 0x10000000 ≤ a) : segmentEnd a = if a < 0x50000000 then 0x50000000 else 2 ^ 32 := by
  simp only [segmentEnd, segmentOf_data, ha, true_and]
  rfl

theorem State.loadCell_during_run (h : s.beforeFirstCycle = false) :
    s.loadCell addr data = .refused .imageDuringRun := by
  simp [State.loadCell, h]

variable (h : s.beforeFirstCycle = true)
include h

theorem State.loadCell_word (hseg : addr.toNat < 0x10000000) (halign : addr.toNat % 4 = 0) :
    s.loadCell addr data = .next { s with im := s.im.write addr.toNat data } := by
  simp [State.loadCell, h, segmentOf_instruction.2 hseg, halign]

theorem State.loadCell_misaligned (hseg : addr.toNat < 0x10000000) (halign : addr.toNat % 4 ≠ 0) :
    s.loadCell addr data = .refused .imageMisaligned := by
  simp [State.loadCell, h, segmentOf_instruction.2 hseg, halign]

theorem State.loadCell_bytes (hseg : 0x10000000 ≤ addr.toNat) (hend : addr.toNat + 4 ≤ segmentEnd addr.toNat) :
    s.loadCell addr data = .next (s.writeLE addr.toNat data 4) := by
  simp [State.loadCell, h, segmentOf_ne_instruction hseg, Nat.not_lt.2 hend]

theorem State.loadCell_past_end (hseg : 0x10000000 ≤ addr.toNat) (hend : segmentEnd addr.toNat < addr.toNat + 4) :
    s.loadCell addr data = .refused .imagePastSegmentEnd := by
  simp [State.loadCell, h, segmentOf_ne_instruction hseg, hend]

end LoadCell

/-- The two ways in which the port accepts a line. -/
theorem State.loadCell_cases {s t : State} {addr data : Word} (h : s.loadCell addr data = .next t) :
    (addr.toNat < 0x10000000 ∧ addr.toNat % 4 = 0 ∧ t = { s with im := s.im.write addr.toNat data }) ∨
    (0x10000000 ≤ addr.toNat ∧ addr.toNat + 4 ≤ segmentEnd addr.toNat ∧ t = s.writeLE addr.toNat data 4) := by
  cases hfirst : s.beforeFirstCycle with
  | false => cases (State.loadCell_during_run hfirst).symm.trans h
  | true =>
    rcases Nat.lt_or_ge addr.toNat 0x10000000 with hseg | hseg
    · by_cases halign : addr.toNat % 4 = 0
      · cases (State.loadCell_word hfirst hseg halign).symm.trans h
        exact .inl ⟨hseg, halign, rfl⟩
      · cases (State.loadCell_misaligned hfirst hseg halign).symm.trans h
    · rcases Nat.lt_or_ge (segmentEnd addr.toNat) (addr.toNat + 4) with hend | hend
      · cases (State.loadCell_past_end hfirst hseg hend).symm.trans h
      · cases (State.loadCell_bytes hfirst hseg hend).symm.trans h
        exact .inr ⟨hseg, hend, rfl⟩

/-! ## What an accepted line changes -/

/-- A word written to the instruction memory is no change of a register, the pc or the status. -/
theorem onlyMemoryChanges_im_write (s : State) (a : Nat) (w : Word) :
    OnlyMemoryChanges s { s with im := s.im.write a w } where
  registers := State.readReg_congr rfl
  pc := rfl
  status := ⟨rfl, rfl, rfl, rfl, rfl, rfl⟩

theorem onlyMemoryChanges_writeLE (s : State) (a : Nat) (v : Word) (n : Nat) : OnlyMemoryChanges s (s.writeLE a v n) where
  registers := s.readReg_writeLE a v n
  pc := s.writeLE_pc a v n
  status := ⟨s.writeLE_halted a v n, s.writeLE_haltCause a v n, s.writeLE_errMemRegion a v n, s.writeLE_errPulse a v n,
    s.writeLE_retired a v n, s.writeLE_draws a v n⟩

/-- Settles O55: an accepted word is a write of the instruction memory, accepted bytes are a little-endian write, and neither
touches another field; the refusals are the port's own cases. -/
theorem imageLinesAreRouted : Obligations.ImageLinesAreRouted := by
  unfold Obligations.ImageLinesAreRouted
  refine ⟨fun s addr data hretired hrun => ?_, fun s addr data h => State.loadCell_during_run ?_⟩
  · have hfirst : s.beforeFirstCycle = true := State.beforeFirstCycle_iff.2 ⟨hretired, hrun⟩
    refine ⟨fun hseg halign => ?_, fun hseg hend => ?_, State.loadCell_misaligned hfirst, fun hseg hend => ?_⟩
    · have hfetch := State.ifetch_of_im_write (s := s) (t := { s with im := s.im.write addr.toNat data })
        (fetchable_iff.2 ⟨halign, hseg⟩) rfl
      exact ⟨_, State.loadCell_word hfirst hseg halign, (hfetch addr).trans (if_pos rfl),
        fun a ha => (hfetch a).trans (if_neg ha), State.byteAt_congr rfl rfl, onlyMemoryChanges_im_write s _ data⟩
    · refine ⟨_, State.loadCell_bytes hfirst hseg (segmentEnd_of_le hseg ▸ hend), s.writeLE_im _ _ _, fun k hk => ?_,
        fun a ha => s.byteAt_writeLE_outside _ _ _ a ha, onlyMemoryChanges_writeLE s _ data 4⟩
      rw [s.byteAt_writeLE_inside _ _ _ _ hk, toNat_byte]
    · exact State.loadCell_past_end hfirst hseg (segmentEnd_of_le hseg ▸ hend)
  · rw [← Bool.not_eq_true, State.beforeFirstCycle_iff]
    rintro ⟨hretired, hrun⟩
    exact h.elim (· hretired) fun hhalted => Bool.false_ne_true (hrun.symm.trans hhalted)

/-! ## The invariant -/

variable {s : State}

/-- The reset input takes registers, pc and status from the reset state and keeps the memories (R200, R201). -/
theorem inv_hostReset (hs : s.Inv) : s.hostReset.Inv := by
  obtain ⟨-, him, hdata, -⟩ := hs
  obtain ⟨hzero, -, -, heven, hstatus⟩ := resetMeetsTheInvariant
  exact ⟨hzero, him, hdata, heven, hstatus⟩

/-- A little-endian write inside the data and stack segments. -/
theorem inv_writeLE {a : Nat} (hs : s.Inv) (hlo : dataBase ≤ a) (v : Word) (n : Nat) (hhi : a + n ≤ addressEnd) :
    (s.writeLE a v n).Inv := by
  obtain ⟨hzero, him, hdata, heven, hstatus⟩ := hs
  refine ⟨?_, ?_, State.dataMemWf_writeLE hdata hlo v n hhi, ?_, ?_⟩
  · simpa only [State.zeroRegister, State.writeLE_x] using hzero
  · simpa only [State.instrMemWf, State.writeLE_im] using him
  · simpa only [State.pcEven, State.writeLE_pc] using heven
  · simpa only [State.statusWf, State.writeLE_halted, State.writeLE_haltCause, State.writeLE_errPulse,
      State.writeLE_errMemRegion] using hstatus

theorem segmentEnd_le (a : Nat) : segmentEnd a ≤ addressEnd := by
  unfold segmentEnd
  split
  · decide
  · exact Nat.le_refl _

/-- A line of the image that the port accepts. -/
theorem inv_loadCell {t : State} {addr data : Word} (hs : s.Inv) (h : s.loadCell addr data = .next t) : t.Inv := by
  rcases State.loadCell_cases h with ⟨hseg, halign, rfl⟩ | ⟨hseg, hend, rfl⟩
  · obtain ⟨hzero, him, hdata, heven, hstatus⟩ := hs
    exact ⟨hzero, State.instrMemWf_write him halign hseg data, hdata, heven, hstatus⟩
  · exact inv_writeLE hs hseg data 4 (hend.trans (segmentEnd_le _))

/-- An address at which a word can be stored is even. -/
theorem even_of_fetchable {a : Word} (ha : fetchable a = true) : a.getLsbD 0 = false := by
  obtain ⟨halign, -⟩ := fetchable_iff.1 ha
  rw [BitVec.getLsbD, Nat.testBit_zero, decide_eq_false_iff_not]
  omega

/-- A word placed where the step fetches: the pc it leaves is one that can be fetched, and the released core has no cause. -/
theorem inv_placeFetchWord (hs : s.Inv) (w : Word) : (s.placeFetchWord w).Inv := by
  obtain ⟨hzero, him, hdata, -, -, -, hsticky⟩ := hs
  obtain ⟨halign, hseg⟩ := fetchable_iff.1 s.fetchable_placeAddr
  exact ⟨hzero, State.instrMemWf_write him halign hseg w, hdata, even_of_fetchable s.fetchable_placeAddr,
    iff_of_false Bool.false_ne_true fun h => h rfl, fun h => absurd h Bool.false_ne_true, hsticky⟩

/-- Settles O54: the three actions, each of which keeps every part of the invariant. -/
theorem hostPortKeepsTheInvariant : Obligations.HostPortKeepsTheInvariant := by
  unfold Obligations.HostPortKeepsTheInvariant
  exact ⟨fun _ => inv_hostReset, fun _ _ _ _ => inv_loadCell, fun _ _ _ hs => inv_placeFetchWord hs _⟩

end Sys2Proof.Machine
end
